-- ==== Sys2Proof/Word.lean ====
section
/-! DEFINITION. The word and byte types (00_scope.md R7: every register is 32 bits wide, a byte is 8 bits). -/

namespace Sys2Proof

/-- A register or command word (R7). -/
abbrev Word := BitVec 32

/-- One channel of an encoded pixel (R7, R42). -/
abbrev Byte := BitVec 8

end Sys2Proof
end

