-- ==== Sys2Proof/Config.lean ====
section
/-! DEFINITION. The implementation parameters of 00_scope.md R6: the values this hardware takes, and the parameters
the spec leaves OPEN as constants without a body. -/

namespace Sys2Proof

/-- The byte conversion of RGBD and RGBD2, which R6 and R85 name `TRUNC` and `ROUND_HA`. -/
inductive QdMode where
  | trunc
  | roundHalfAway
deriving DecidableEq, Repr

/-- `QD_MODE`: this hardware takes `TRUNC` (R6, D7). -/
def Config.qdMode : QdMode := .trunc

/-- `RANGE_RESET`: binary32 8.0 (R6). -/
def Config.rangeReset : Word := 0x41000000#32

/-- `T_FLOOR`: the real number 10^-32 (R6, R91). -/
def Config.tFloor : ℚ := 1 / 10 ^ 32

/-- The RGBE exponent bias of an encode (R6). -/
def Config.encodeBias : ℤ := 128

/-- The RGBE exponent bias of a decode, 128 + 8 (R6). -/
def Config.decodeBias : ℤ := 136

/-- Which 64-byte block of the platform's address space holds the lowest window: OPEN (R6, D16; log entry 6). -/
opaque Config.firstBlock : Nat

/-- How many 64-byte blocks the platform leaves free between window `k` and window `k + 1`: OPEN (log entry 22). -/
opaque Config.blocksBetween : Nat → Nat

/-- Which 64-byte block holds the window of instance `k`. R6 gives one BASE and R171 each instance its own window: the
instances are numbered by rising window, a choice of the model's (log entry 22). -/
def Config.baseBlock : Nat → Nat
  | 0 => Config.firstBlock
  | k + 1 => Config.baseBlock k + 1 + Config.blocksBetween k

/-- `BASE` of instance `k`: a multiple of 64, placed by the platform (R6, R40, R171; log entry 22). -/
def Config.base (k : Nat) : Nat := 64 * Config.baseBlock k

/-- `LATENCY`: OPEN and unobservable (R6, R185). Nothing in the model reads it: a model has no time (log entry 6). -/
opaque Config.latency : Nat

/-- `NUM_INSTANCES`: OPEN, the number of blocks on the platform (R6, R171; log entry 6). -/
opaque Config.numInstances : Nat

end Sys2Proof
end

