-- ==== Sys2Proof/Syntax.lean ====
section
/-! DEFINITION. The commands: one constructor per row of spec/opcode_table.json, and the fields of the one format
`CMD32` (30_encoding.md R60). -/

namespace Sys2Proof

/-- The four variants, in the order of their codes (R2, R61). -/
inductive Variant where
  | rgbm
  | rgbd
  | rgbd2
  | rgbe
deriving DecidableEq, Repr

/-- The nine commands (R63). None has an operand: every operand comes from a fixed register (R65). -/
inductive Instr where
  | nop
  | encRgbm
  | encRgbd
  | encRgbd2
  | encRgbe
  | decRgbm
  | decRgbd
  | decRgbd2
  | decRgbe
deriving DecidableEq, Repr

/-- ENCODE of a variant (R62, R144). -/
def Instr.encodeOf : Variant → Instr
  | .rgbm => .encRgbm
  | .rgbd => .encRgbd
  | .rgbd2 => .encRgbd2
  | .rgbe => .encRgbe

/-- DECODE of a variant (R62, R144). -/
def Instr.decodeOf : Variant → Instr
  | .rgbm => .decRgbm
  | .rgbd => .decRgbd
  | .rgbd2 => .decRgbd2
  | .rgbe => .decRgbe

/-- The fields of a `CMD32` word: OP bits 3:0, VAR bits 5:4, RSV bits 31:6 (R60). -/
structure CmdFields where
  op : BitVec 4
  var : BitVec 2
  rsv : BitVec 26
deriving DecidableEq, Repr

end Sys2Proof
end

