-- ==== Sys2Proof/WellFormed.lean ====
section
/-! DEFINITION. Which field values form a command (30_encoding.md R60 to R64). -/

namespace Sys2Proof

/-- The reserved field is 0 (R60). -/
def CmdFields.rsvClear (f : CmdFields) : Bool := f.rsv == 0

/-- OP is NOP, ENCODE or DECODE: 3 to 15 are reserved (R62). -/
def CmdFields.opAssigned (f : CmdFields) : Bool := f.op == 0 || f.op == 1 || f.op == 2

/-- NOP takes VAR = 0 only (R64: OP = 0 with VAR ≠ 0 is reserved). -/
def CmdFields.nopPlain (f : CmdFields) : Bool := f.op != 0 || f.var == 0

/-- The fields of a command, not of a reserved word. -/
def CmdFields.wf (f : CmdFields) : Bool := f.rsvClear && f.opAssigned && f.nopPlain

/-- A command carries no immediate and no register number (R65), so each constructor is well-formed as it stands.
What can be ill-formed is a word's fields: `CmdFields.wf`. -/
def Instr.wf : Instr → Bool
  | .nop => true
  | .encRgbm => true
  | .encRgbd => true
  | .encRgbd2 => true
  | .encRgbe => true
  | .decRgbm => true
  | .decRgbd => true
  | .decRgbd2 => true
  | .decRgbe => true

end Sys2Proof
end

