-- ==== Sys2Proof/Decode.lean ====
section
/-! DEFINITION. The command decoder and encoder (30_encoding.md R60 to R64). -/

namespace Sys2Proof

/-- Why a word is reserved (R64), in the order `decodeCmd` tests. -/
inductive ReservedWord where
  /-- a bit of 31:6 is set -/
  | rsvSet
  /-- OP is 3 to 15 -/
  | opReserved
  /-- OP = 0 with VAR ≠ 0 -/
  | nopWithVariant
deriving DecidableEq, Repr

/-- The fields of a word (R60). -/
def cmdFields (w : Word) : CmdFields :=
  { op := w.extractLsb' 0 4, var := w.extractLsb' 4 2, rsv := w.extractLsb' 6 26 }

/-- The variant of a VAR code; all four codes are assigned (R61). -/
def variantOfCode (v : BitVec 2) : Variant :=
  match v.toNat with
  | 0 => .rgbm
  | 1 => .rgbd
  | 2 => .rgbd2
  | _ => .rgbe

/-- The command of a word's fields, or why there is none (R63's `decodeCmd`). -/
def decodeFields (f : CmdFields) : Except ReservedWord Instr :=
  if f.rsv ≠ 0 then .error .rsvSet
  else if f.op = 0 then
    if f.var = 0 then .ok .nop else .error .nopWithVariant
  else if f.op = 1 then .ok (Instr.encodeOf (variantOfCode f.var))
  else if f.op = 2 then .ok (Instr.decodeOf (variantOfCode f.var))
  else .error .opReserved

/-- `decodeCmd` (R63): total on every 32-bit word. -/
def decodeCmd (w : Word) : Except ReservedWord Instr :=
  decodeFields (cmdFields w)

/-- The code of a variant (R61). -/
def Variant.code : Variant → BitVec 2
  | .rgbm => 0
  | .rgbd => 1
  | .rgbd2 => 2
  | .rgbe => 3

/-- The fields of a command (R60 to R63). -/
def Instr.fields : Instr → CmdFields
  | .nop => { op := 0, var := 0, rsv := 0 }
  | .encRgbm => { op := 1, var := Variant.rgbm.code, rsv := 0 }
  | .encRgbd => { op := 1, var := Variant.rgbd.code, rsv := 0 }
  | .encRgbd2 => { op := 1, var := Variant.rgbd2.code, rsv := 0 }
  | .encRgbe => { op := 1, var := Variant.rgbe.code, rsv := 0 }
  | .decRgbm => { op := 2, var := Variant.rgbm.code, rsv := 0 }
  | .decRgbd => { op := 2, var := Variant.rgbd.code, rsv := 0 }
  | .decRgbd2 => { op := 2, var := Variant.rgbd2.code, rsv := 0 }
  | .decRgbe => { op := 2, var := Variant.rgbe.code, rsv := 0 }

/-- The word of some fields: RSV above VAR above OP (R60). -/
def CmdFields.word (f : CmdFields) : Word := f.rsv ++ f.var ++ f.op

/-- The command word of a command (R63). -/
def encode (i : Instr) : Word := i.fields.word

/-- The instruction the decoder reads from the opcode table's bits: every bit above `nbits` is 0, and a command is one
32-bit word (R60). -/
def decodeTableWord (nbits w : Nat) : Option Instr :=
  match decodeCmd (BitVec.ofNat 32 (w % 2 ^ nbits)) with
  | .ok i => some i
  | .error _ => none

end Sys2Proof
end

