-- ==== Sys2Proof/Machine/State.lean ====
section
/-! DEFINITION. The state: the eight registers of 10_state.md R20, and the block's port (what arrives at it and what it
answers), which the spec places outside the block. -/

namespace Sys2Proof.Machine

/-- The architectural state, exactly these eight registers (R20). -/
structure Regs where
  /-- RANGE (R23) -/
  range : Word
  /-- STATUS (R24); bits 31:8 are reserved and hold 0 -/
  status : Word
  /-- IN0 (R27) -/
  in0 : Word
  /-- IN1 (R28) -/
  in1 : Word
  /-- IN2 (R29) -/
  in2 : Word
  /-- OUT0 (R30) -/
  out0 : Word
  /-- OUT1 (R31) -/
  out1 : Word
  /-- OUT2 (R31) -/
  out2 : Word
deriving DecidableEq, Repr

/-- One bus access: its size in bytes and, for a write, its data and byte enables (R140). -/
inductive Access where
  | read (size : Nat)
  | write (size : Nat) (data : Word) (be : BitVec 4)
deriving DecidableEq, Repr

/-- What can arrive at the block from outside. -/
inductive PortEvent where
  /-- A transaction at the block's port; `off` is an offset within the 64-byte window (R40, R140). -/
  | transaction (off : BitVec 6) (a : Access)
  /-- The same access as a host issues it, by platform byte address (R40, R53). -/
  | atAddress (addr : Nat) (a : Access)
  /-- The platform drives the reset input: asserted or released (R180). -/
  | resetInput (asserted : Bool)
  /-- Power comes up; the reset input is asserted at power-up (R173, R180). -/
  | powerUp
deriving DecidableEq, Repr

/-- What the bus carries back for one transaction. -/
inductive Reply where
  /-- An admitted read's value (R141). -/
  | data (v : Word)
  /-- An admitted write's completion (R47, R150). -/
  | written
  /-- The error response (R162). -/
  | busError
  /-- The block gave no answer: the transaction did not reach it or was not taken (R53, R180); what the bus does with
  it is the platform's (log entries 4 and 5). -/
  | unanswered
deriving DecidableEq, Repr

/-- The machine: the architectural registers, and its port. `window`, `resetLine`, `pending` and `replies` are the
model's own fields (log entries 1, 4 and 22): which of the platform's windows the block is wired to (R171), the level of
the reset input, the events still to arrive in arrival order (R47), and the answers already given, oldest first. No
command and no read of the window reads them: the block has no instance identifier (R171). -/
structure State where
  regs : Regs
  window : Nat
  resetLine : Bool
  pending : List PortEvent
  replies : List Reply
deriving DecidableEq, Repr

/-- Reasons to stop with a fault: none. Every exceptional condition is a sticky STATUS bit or an error response on the
bus (R160), and every step is total (R149). -/
inductive Fault where
deriving DecidableEq, Repr

/-- Reasons to refuse. -/
inductive Refusal where
  /-- Raised by `exec` only, for an instruction without a meaning. Safe. No arm raises it now. -/
  | notModelled (mnemonic : String)
deriving DecidableEq, Repr

/-- The registers after reset (R35, R180). -/
def Regs.reset : Regs :=
  { range := Config.rangeReset, status := 0, in0 := 0, in1 := 0, in2 := 0, out0 := 0, out1 := 0, out2 := 0 }

/-- The machine right after reset (R35, R180): the reset input released, nothing arrived yet (log entries 1 and 3), the
block wired to window 0 (log entry 22). -/
def State.reset : State :=
  { regs := Regs.reset, window := 0, resetLine := false, pending := [], replies := [] }

end Sys2Proof.Machine
end

