-- ==== Sys2Proof/Machine/Binary32.lean ====
section
/-! DEFINITION. binary32: fields, value and rounding (00_scope.md R10 to R12). Numbers are exact rationals (R9). -/

namespace Sys2Proof.Machine

/-- The sign `x[31]` (R10). -/
def signBit (x : Word) : Bool := x.msb

/-- The biased exponent `x[30:23]` (R10). -/
def expField (x : Word) : Nat := (x.extractLsb' 23 8).toNat

/-- The fraction `x[22:0]` (R10). -/
def fracField (x : Word) : Nat := (x.extractLsb' 0 23).toNat

/-- A NaN of either sign (R10). -/
def isNaN (x : Word) : Bool := expField x == 255 && fracField x != 0

/-- An infinity of either sign (R10). -/
def isInf (x : Word) : Bool := expField x == 255 && fracField x == 0

/-- Neither a NaN nor an infinity (R10). -/
def isFinite (x : Word) : Bool := expField x != 255

/-- A finite pattern with sign 0: what every decode result is (R124). -/
def isFiniteNonneg (x : Word) : Bool := !signBit x && isFinite x

/-- `MAXF` (R10). -/
def maxF : Word := 0x7F7FFFFF#32

/-- `val(x)` (R10) of a finite pattern. R10 gives NaN and infinity no value: every use has a finite argument (`san`
tests for them first, and RANGE is always legal by R23); the second formula then stands for nothing (log entry 10). -/
def val (x : Word) : ℚ :=
  let mag : ℚ :=
    if expField x = 0 then (fracField x : ℚ) * 2 ^ (-149 : ℤ)
    else (2 ^ 23 + fracField x : ℚ) * 2 ^ ((expField x : ℤ) - 150)
  if signBit x then -mag else mag

/-- `rne(q)`: the nearest integer, ties to the even one (R11), for `q ≥ 0`. -/
def rne (q : ℚ) : Nat :=
  let n := ⌊q⌋₊
  let rest := q - n
  if rest < 1 / 2 then n
  else if 1 / 2 < rest then n + 1
  else if n % 2 = 0 then n
  else n + 1

/-- `{0b0, zext_8(e + 127), zext_23(n - 2^23)}` (R12): the pattern of the normal number `n * 2^(e-23)`. -/
def normalPattern (e : ℤ) (n : Nat) : Word :=
  0#1 ++ BitVec.ofNat 8 (e + 127).toNat ++ BitVec.ofNat 23 (n - 2 ^ 23)

/-- `RNE32(q)` (R12), for `q ≥ 0`: `Int.log 2 q` is `floor(log2 q)`. An exponent above 127 never arises (R124; log
entry 11). -/
def rne32 (q : ℚ) : Word :=
  if q = 0 then 0x00000000#32
  else
    let e := Int.log 2 q
    if e < -126 then BitVec.ofNat 32 (rne (q / 2 ^ (-149 : ℤ)))
    else
      let n := rne (q / 2 ^ (e - 23))
      if n = 2 ^ 24 then normalPattern (e + 1) (2 ^ 23) else normalPattern e n

/-- A pattern RANGE may hold: positive and finite, subnormals included (R23, R142). -/
def legalRange (d : Word) : Bool :=
  !signBit d && expField d != 255 && d != 0x00000000#32

end Sys2Proof.Machine
end

