-- ==== Sys2Proof/Machine/Flags.lean ====
section
/-! DEFINITION. The sticky STATUS bits: their codes, setting them and clearing them (10_state.md R24, 60_exceptions.md
R161, 43_host_access.md R143). -/

namespace Sys2Proof.Machine

/-- The events of R24 and R161. -/
inductive Flag where
  | inNan
  | inNeg
  | inInf
  | sat
  | zdiv
  | ufl
  | rangeErr
  | cmdErr
deriving DecidableEq, Repr

/-- The cause code of an event: its STATUS bit number (R161). -/
def Flag.bit : Flag → Nat
  | .inNan => 0
  | .inNeg => 1
  | .inInf => 2
  | .sat => 3
  | .zdiv => 4
  | .ufl => 5
  | .rangeErr => 6
  | .cmdErr => 7

/-- The STATUS word with just one event's bit set. -/
def Flag.mask (f : Flag) : Word := BitVec.twoPow 32 f.bit

/-- `for each flag X in F: STATUS.X <- 1` (R81): a sticky OR; no bit is cleared. -/
def setFlags (status : Word) (F : List Flag) : Word :=
  F.foldl (fun st f => st ||| f.mask) status

/-- Write-1-to-clear (R143): bits 7:0 of `d` that are 1 clear theirs; bits 31:8 of `d` are ignored. -/
def clearFlags (status d : Word) : Word :=
  status &&& ~~~(d &&& 0x000000FF#32)

/-- STATUS as a read returns it: `{0x000000, STATUS[7:0]}` (R141). -/
def readStatus (status : Word) : Word :=
  status &&& 0x000000FF#32

end Sys2Proof.Machine
end

