-- ==== Sys2Proof/Machine/Operands.lean ====
section
/-! DEFINITION. The operand forms: an encode input through the sanitiser (40_datapath_units.md R83, R84), an encoded
pixel as four bytes (00_scope.md R13, 20_memory.md R42), and a command's result (R80). -/

namespace Sys2Proof.Machine

/-- What `SAN` gives: a non-negative rational and the flags it adds to `F` (R84). -/
structure Sanitised where
  value : ℚ
  flags : List Flag
deriving DecidableEq, Repr

/-- `SAN(x)` (R84). -/
def san (x : Word) : Sanitised :=
  if isNaN x then { value := 0, flags := [.inNan] }
  else if isInf x && !signBit x then { value := val maxF, flags := [.inInf] }
  else if signBit x then
    if x = 0x80000000#32 then { value := 0, flags := [] }
    else { value := 0, flags := [.inNeg] }
  else { value := val x, flags := [] }

/-- The four bytes of an encoded pixel: R, G, B and the shared byte (R42). -/
structure EncodedPixel where
  b0 : Byte
  b1 : Byte
  b2 : Byte
  b3 : Byte
deriving DecidableEq, Repr

/-- `unpack(w)` (R13). -/
def unpack (w : Word) : EncodedPixel :=
  { b0 := w.extractLsb' 0 8, b1 := w.extractLsb' 8 8, b2 := w.extractLsb' 16 8, b3 := w.extractLsb' 24 8 }

/-- `pack(b0, b1, b2, b3) = {b3, b2, b1, b0}` (R13). -/
def pack (b0 b1 b2 b3 : Byte) : Word := b3 ++ b2 ++ b1 ++ b0

/-- `byte(v)` (R13), which asserts `0 ≤ v ≤ 255`; every use has such a `v` (log entry 14). -/
def byte (v : Nat) : Byte := BitVec.ofNat 8 v

/-- What a command computes before it commits: three words and a flag set (R80). -/
structure CmdResult where
  o0 : Word
  o1 : Word
  o2 : Word
  flags : List Flag
deriving DecidableEq, Repr

/-- An encode's result: the packed pixel in OUT0, and OUT1 = OUT2 = 0 (R30, R31, R104). -/
def encodeResult (b0 b1 b2 b3 : Byte) (F : List Flag) : CmdResult :=
  { o0 := pack b0 b1 b2 b3, o1 := 0x00000000#32, o2 := 0x00000000#32, flags := F }

/-- A decode's result: one `RNE32` per channel (R12, R82). -/
def decodeResult (r g b : ℚ) (F : List Flag) : CmdResult :=
  { o0 := rne32 r, o1 := rne32 g, o2 := rne32 b, flags := F }

end Sys2Proof.Machine
end

