-- ==== Sys2Proof/Machine/Quantizers.lean ====
section
/-! DEFINITION. The byte quantizers, the byte saturator and the shared-exponent scaler (40_datapath_units.md R85 to
R91). -/

namespace Sys2Proof.Machine

/-- `QR(q) = floor(q + 1/2)`: round half away from zero, `q ≥ 0` (R11, R85). -/
def qr (q : ℚ) : Nat := ⌊q + 1 / 2⌋₊

/-- `QT(q) = floor(q)`: truncate, `q ≥ 0` (R11, R85). -/
def qt (q : ℚ) : Nat := ⌊q⌋₊

/-- `QD(q)`: `QT` or `QR` by `QD_MODE` (R85). -/
def qd (mode : QdMode) (q : ℚ) : Nat :=
  match mode with
  | .trunc => qt q
  | .roundHalfAway => qr q

/-- The clamped-ratio quantizer `CRQ(c, s) = QR(255 * min(c / s, 1))`, `c ≥ 0`, `s > 0` (R86). -/
def crq (c s : ℚ) : Nat := qr (255 * min (c / s) 1)

/-- What `SAT8` gives: an integer of 0 to 255 and the flags it adds to `F` (R87). -/
structure Saturated where
  value : Nat
  flags : List Flag
deriving DecidableEq, Repr

/-- `SAT8(n)` (R87). -/
def sat8 (n : Nat) : Saturated :=
  if n > 255 then { value := 255, flags := [.sat] } else { value := n, flags := [] }

/-- What `FREXP` gives: `M = m * 2^e` with `1/2 ≤ m < 1` (R89). -/
structure Frexp where
  m : ℚ
  e : ℤ
deriving DecidableEq, Repr

/-- `FREXP(M)`, `M > 0`: `e = floor(log2 M) + 1`, `m = M / 2^e` (R89). -/
def frexp (M : ℚ) : Frexp :=
  let e := Int.log 2 M + 1
  { m := M / 2 ^ e, e := e }

/-- What the shared-exponent scaler gives: the exponent `e'`, the scale `v` and the flags it adds to `F` (R88). -/
structure SharedScale where
  e : ℤ
  v : ℚ
  flags : List Flag
deriving DecidableEq, Repr

/-- The shared-exponent scaler `SES(M)`, `M ≥ 10^-32` (R88). -/
def ses (M : ℚ) : SharedScale :=
  let f := frexp M
  if f.e > 127 then { e := 127, v := 2 ^ (8 - 127 : ℤ), flags := [.sat] }
  else { e := f.e, v := 2 ^ (8 - f.e), flags := [] }

end Sys2Proof.Machine
end

