-- ==== Sys2Proof/Machine/Ops.lean ====
section
/-! DEFINITION. The named operations over the registers and the port: the commit of a command (40_datapath_units.md
R81), raising an event (60_exceptions.md R160), the reads and writes of the window (43_host_access.md R140 to R148),
the error response (R162) and reset (70_reset_and_hazards.md R180). The block has no trap entry and no trap return
(R165, R166), so raising an event is all that taking an exception is. -/

namespace Sys2Proof.Machine

/-- Raising events: their sticky STATUS bits are set and nothing else changes (R160, R161). -/
def raiseFlags (F : List Flag) (s : State) : State :=
  { s with regs := { s.regs with status := setFlags s.regs.status F } }

/-- Commit (R81): OUT0 to OUT2 and the sticky bits, in one step. -/
def commit (r : CmdResult) (s : State) : State :=
  { s with regs := { s.regs with
      out0 := r.o0, out1 := r.o1, out2 := r.o2, status := setFlags s.regs.status r.flags } }

/-- The named registers of the window (R40). -/
inductive RegName where
  | id
  | range
  | status
  | cmd
  | in0
  | in1
  | in2
  | out0
  | out1
  | out2
deriving DecidableEq, Repr

/-- The register at an aligned offset; none at the reserved offsets `0x28` to `0x3C` (R40, R54). -/
def regAt (off : BitVec 6) : Option RegName :=
  match off.toNat with
  | 0x00 => some .id
  | 0x04 => some .range
  | 0x08 => some .status
  | 0x0C => some .cmd
  | 0x10 => some .in0
  | 0x14 => some .in1
  | 0x18 => some .in2
  | 0x1C => some .out0
  | 0x20 => some .out1
  | 0x24 => some .out2
  | _ => none

/-- The offset of a register (R40). -/
def RegName.offset : RegName → BitVec 6
  | .id => 0x00
  | .range => 0x04
  | .status => 0x08
  | .cmd => 0x0C
  | .in0 => 0x10
  | .in1 => 0x14
  | .in2 => 0x18
  | .out0 => 0x1C
  | .out1 => 0x20
  | .out2 => 0x24

/-- The ID constant (R25). -/
def idWord : Word := 0x52474258#32

/-- `readReg` (R141): the value an admitted read returns; it changes nothing. -/
def readReg (r : Regs) (off : BitVec 6) : Word :=
  match regAt off with
  | some .id => idWord
  | some .range => r.range
  | some .status => readStatus r.status
  | some .cmd => 0x00000000#32
  | some .in0 => r.in0
  | some .in1 => r.in1
  | some .in2 => r.in2
  | some .out0 => r.out0
  | some .out1 => r.out1
  | some .out2 => r.out2
  | none => 0x00000000#32

/-- `writeRange` (R142): a legal pattern is stored, any other sets RANGE_ERR. -/
def writeRange (d : Word) (s : State) : State :=
  if legalRange d then { s with regs := { s.regs with range := d } }
  else raiseFlags [.rangeErr] s

/-- `writeStatus` (R143): write-1-to-clear. -/
def writeStatus (d : Word) (s : State) : State :=
  { s with regs := { s.regs with status := clearFlags s.regs.status d } }

/-- A reserved command word (R145): CMD_ERR and nothing else. -/
def rejectCommand (s : State) : State := raiseFlags [.cmdErr] s

/-- The admission check (R44, R45, R140): 32 bits wide, aligned, and every byte of a write enabled. -/
def admitted (off : BitVec 6) (a : Access) : Bool :=
  match a with
  | .read size => size == 4 && off.toNat % 4 == 0
  | .write size _ be => size == 4 && off.toNat % 4 == 0 && be == 0b1111#4

/-- The bus carries an answer back. -/
def answer (r : Reply) (s : State) : State := { s with replies := s.replies ++ [r] }

/-- Reset is asserted (R180): every register at its value of R35, and no transaction is taken until it is released. -/
def assertReset (s : State) : State := { s with regs := Regs.reset, resetLine := true }

/-- Reset is released: the registers stay as reset left them (R180, R181). -/
def releaseReset (s : State) : State := { s with resetLine := false }

/-- Where a platform byte address falls in window `k`, which is `[BASE, BASE + 0x40)` for that instance's BASE; none
outside it (R40, R53, R171). Where the windows of several instances lie is the platform's: that each has a BASE of its
own, and that no two windows overlap, is the model's reading of R6 and R171 (log entry 22). -/
def windowOffset (k addr : Nat) : Option (BitVec 6) :=
  if Config.base k ≤ addr ∧ addr < Config.base k + 0x40 then some (BitVec.ofNat 6 (addr - Config.base k)) else none

end Sys2Proof.Machine
end

