-- ==== Sys2Proof/Machine/DecodeCommands.lean ====
section
/-! DEFINITION. The decode commands (42_decode.md R120 to R124): each reads IN0 as four bytes (and RANGE), evaluates each
channel exactly and rounds it once. -/

namespace Sys2Proof.Machine

/-- One channel of DEC.RGBM before `RNE32`: `a = b3 * rho / 255^2`, the channel is `b * a` (R120). -/
def rgbmChannel (rho : ℚ) (b3 b : Byte) : ℚ :=
  let a : ℚ := b3.toNat * rho / 255 ^ 2
  b.toNat * a

/-- One channel of DEC.RGBD before `RNE32`, for `b3 ≠ 0`: `f = 1 / b3`, the channel is `b * f` (R121). -/
def rgbdChannel (b3 b : Byte) : ℚ :=
  let f : ℚ := 1 / b3.toNat
  b.toNat * f

/-- One channel of DEC.RGBD2 before `RNE32`, for `b3 ≠ 0`: `f = (rho/255) / (b3/255)`, the channel is `b * f / 255`
(R122). -/
def rgbd2Channel (rho : ℚ) (b3 b : Byte) : ℚ :=
  let f : ℚ := rho / 255 / (b3.toNat / 255)
  b.toNat * f / 255

/-- One channel of DEC.RGBE: `f = 2^(b3 - 136)`, the channel is `b * f` (R123). -/
def rgbeChannel (b3 b : Byte) : ℚ :=
  let f : ℚ := 2 ^ ((b3.toNat : ℤ) - Config.decodeBias)
  b.toNat * f

/-- The zero-divisor result: three `+0` and ZDIV (R121, R122, D12). -/
def zeroDivisorResult : CmdResult :=
  { o0 := 0x00000000#32, o1 := 0x00000000#32, o2 := 0x00000000#32, flags := [.zdiv] }

/-- DEC.RGBM (R120). -/
def decRgbm (x0 range : Word) : CmdResult :=
  let p := unpack x0
  let rho := val range
  decodeResult (rgbmChannel rho p.b3 p.b0) (rgbmChannel rho p.b3 p.b1) (rgbmChannel rho p.b3 p.b2) []

/-- DEC.RGBD (R121). -/
def decRgbd (x0 : Word) : CmdResult :=
  let p := unpack x0
  if p.b3 = 0 then zeroDivisorResult
  else decodeResult (rgbdChannel p.b3 p.b0) (rgbdChannel p.b3 p.b1) (rgbdChannel p.b3 p.b2) []

/-- DEC.RGBD2 (R122). -/
def decRgbd2 (x0 range : Word) : CmdResult :=
  let p := unpack x0
  let rho := val range
  if p.b3 = 0 then zeroDivisorResult
  else decodeResult (rgbd2Channel rho p.b3 p.b0) (rgbd2Channel rho p.b3 p.b1) (rgbd2Channel rho p.b3 p.b2) []

/-- DEC.RGBE (R123). -/
def decRgbe (x0 : Word) : CmdResult :=
  let p := unpack x0
  decodeResult (rgbeChannel p.b3 p.b0) (rgbeChannel p.b3 p.b1) (rgbeChannel p.b3 p.b2) []

/-- The meaning of DEC.RGBM (R120). -/
def execDecRgbm (s : State) : Host.Outcome State Fault Refusal :=
  .next (commit (decRgbm s.regs.in0 s.regs.range) s)

/-- The meaning of DEC.RGBD (R121). RANGE is not read. -/
def execDecRgbd (s : State) : Host.Outcome State Fault Refusal :=
  .next (commit (decRgbd s.regs.in0) s)

/-- The meaning of DEC.RGBD2 (R122). -/
def execDecRgbd2 (s : State) : Host.Outcome State Fault Refusal :=
  .next (commit (decRgbd2 s.regs.in0 s.regs.range) s)

/-- The meaning of DEC.RGBE (R123). RANGE is not read. -/
def execDecRgbe (s : State) : Host.Outcome State Fault Refusal :=
  .next (commit (decRgbe s.regs.in0) s)

end Sys2Proof.Machine
end

