-- ==== Sys2Proof/Machine/EncodeCommands.lean ====
section
/-! DEFINITION. The encode commands (41_encode.md R100 to R104): each evaluates a pure function of IN0 to IN2 (and RANGE)
over exact rationals (40_datapath_units.md R80, R82) and commits its result (R81). -/

namespace Sys2Proof.Machine

/-- ENC.RGBM (R100). -/
def encRgbm (x0 x1 x2 range : Word) : CmdResult :=
  let R := san x0
  let G := san x1
  let B := san x2
  let rho := val range
  let r := R.value / rho
  let g := G.value / rho
  let b := B.value / rho
  let M := max r (max g b)
  let F := R.flags ++ G.flags ++ B.flags
  if M = 0 then encodeResult 0 0 0 0 F
  else
    let A := ⌈M * 255⌉₊
    let a : ℚ := A / 255
    let F := F ++ (if A > 255 then [.sat] else [])
    encodeResult (byte (crq r a)) (byte (crq g a)) (byte (crq b a)) (byte (crq a 1)) F

/-- ENC.RGBD (R101), for either `QD_MODE`. -/
def encRgbd (mode : QdMode) (x0 x1 x2 : Word) : CmdResult :=
  let R := san x0
  let G := san x1
  let B := san x2
  let M := max (max R.value 1) (max G.value B.value)
  let f := 255 / M
  let b0 := sat8 (qd mode (R.value * f))
  let b1 := sat8 (qd mode (G.value * f))
  let b2 := sat8 (qd mode (B.value * f))
  let b3 := sat8 (qd mode f)
  encodeResult (byte b0.value) (byte b1.value) (byte b2.value) (byte b3.value)
    (R.flags ++ G.flags ++ B.flags ++ b0.flags ++ b1.flags ++ b2.flags ++ b3.flags)

/-- ENC.RGBD2 (R102), for either `QD_MODE`. -/
def encRgbd2 (mode : QdMode) (x0 x1 x2 range : Word) : CmdResult :=
  let R := san x0
  let G := san x1
  let B := san x2
  let rho := val range
  let M := max (max R.value 1) (max G.value B.value)
  let D0 := max (rho / M) 1
  let D : ℚ := min (⌊D0⌋₊ / 255) 1
  let f := D * (255 / rho)
  let b0 := sat8 (qd mode (255 * R.value * f))
  let b1 := sat8 (qd mode (255 * G.value * f))
  let b2 := sat8 (qd mode (255 * B.value * f))
  let b3 := sat8 (qd mode (255 * D))
  encodeResult (byte b0.value) (byte b1.value) (byte b2.value) (byte b3.value)
    (R.flags ++ G.flags ++ B.flags ++ b0.flags ++ b1.flags ++ b2.flags ++ b3.flags)

/-- ENC.RGBE (R103). -/
def encRgbe (x0 x1 x2 : Word) : CmdResult :=
  let R := san x0
  let G := san x1
  let B := san x2
  let M := max R.value (max G.value B.value)
  let F := R.flags ++ G.flags ++ B.flags
  if M < Config.tFloor then encodeResult 0 0 0 0 (F ++ (if M > 0 then [.ufl] else []))
  else
    let k := ses M
    let b0 := sat8 (qt (R.value * k.v))
    let b1 := sat8 (qt (G.value * k.v))
    let b2 := sat8 (qt (B.value * k.v))
    encodeResult (byte b0.value) (byte b1.value) (byte b2.value) (byte (k.e + Config.encodeBias).toNat)
      (F ++ k.flags ++ b0.flags ++ b1.flags ++ b2.flags)

/-- The meaning of ENC.RGBM (R100). -/
def execEncRgbm (s : State) : Host.Outcome State Fault Refusal :=
  .next (commit (encRgbm s.regs.in0 s.regs.in1 s.regs.in2 s.regs.range) s)

/-- The meaning of ENC.RGBD (R101). RANGE is not read. -/
def execEncRgbd (s : State) : Host.Outcome State Fault Refusal :=
  .next (commit (encRgbd Config.qdMode s.regs.in0 s.regs.in1 s.regs.in2) s)

/-- The meaning of ENC.RGBD2 (R102). -/
def execEncRgbd2 (s : State) : Host.Outcome State Fault Refusal :=
  .next (commit (encRgbd2 Config.qdMode s.regs.in0 s.regs.in1 s.regs.in2 s.regs.range) s)

/-- The meaning of ENC.RGBE (R103). RANGE is not read. -/
def execEncRgbe (s : State) : Host.Outcome State Fault Refusal :=
  .next (commit (encRgbe s.regs.in0 s.regs.in1 s.regs.in2) s)

end Sys2Proof.Machine
end

