-- ==== Sys2Proof/Machine/Nop.lean ====
section
/-! DEFINITION. The meaning of NOP (43_host_access.md R146). -/

namespace Sys2Proof.Machine

/-- NOP changes no state and sets no flag (R146). -/
def execNop (s : State) : Host.Outcome State Fault Refusal := .next s

end Sys2Proof.Machine
end

