-- ==== Sys2Proof/Machine/Dispatch.lean ====
section
/-! DEFINITION. One arm per command (43_host_access.md R144). -/

namespace Sys2Proof.Machine

/-- Runs one command to completion (R144). -/
def exec (i : Instr) (s : State) : Host.Outcome State Fault Refusal :=
  match i with
  | .nop => Sys2Proof.Machine.execNop s
  | .encRgbm => Sys2Proof.Machine.execEncRgbm s
  | .encRgbd => Sys2Proof.Machine.execEncRgbd s
  | .encRgbd2 => Sys2Proof.Machine.execEncRgbd2 s
  | .encRgbe => Sys2Proof.Machine.execEncRgbe s
  | .decRgbm => Sys2Proof.Machine.execDecRgbm s
  | .decRgbd => Sys2Proof.Machine.execDecRgbd s
  | .decRgbd2 => Sys2Proof.Machine.execDecRgbd2 s
  | .decRgbe => Sys2Proof.Machine.execDecRgbe s

end Sys2Proof.Machine
end

