-- ==== Sys2Proof/Machine/Bus.lean ====
section
/-! DEFINITION. One transaction at the port (43_host_access.md R140 to R148), and everything else that can arrive there
(20_memory.md R53, 70_reset_and_hazards.md R180). -/

namespace Sys2Proof.Machine

/-- `writeCmd` (R144): decode the word and run one command; a reserved word sets CMD_ERR (R145). -/
def writeCmd (d : Word) (s : State) : Host.Outcome State Fault Refusal :=
  match decodeCmd d with
  | .ok i => exec i s
  | .error _ => .next (rejectCommand s)

/-- An admitted write (R140): RANGE, STATUS, CMD and IN0 to IN2 have their effects; ID, OUT0 to OUT2 and the reserved
offsets ignore it (R54, R148). -/
def writeReg (off : BitVec 6) (d : Word) (s : State) : Host.Outcome State Fault Refusal :=
  match regAt off with
  | some .range => .next (writeRange d s)
  | some .status => .next (writeStatus d s)
  | some .cmd => writeCmd d s
  | some .in0 => .next { s with regs := { s.regs with in0 := d } }
  | some .in1 => .next { s with regs := { s.regs with in1 := d } }
  | some .in2 => .next { s with regs := { s.regs with in2 := d } }
  | some .id => .next s
  | some .out0 => .next s
  | some .out1 => .next s
  | some .out2 => .next s
  | none => .next s

/-- One transaction (R140): the admission check first (R164); a read answers and changes no register; a write takes its
whole effect before the next event (R47). -/
def transact (off : BitVec 6) (a : Access) (s : State) : Host.Outcome State Fault Refusal :=
  if admitted off a then
    match a with
    | .read _ => .next (answer (.data (readReg s.regs off)) s)
    | .write _ d _ => writeReg off d (answer .written s)
  else .next (answer .busError s)

/-- A transaction that reaches the port: not taken while reset is asserted (R180). -/
def arrive (off : BitVec 6) (a : Access) (s : State) : Host.Outcome State Fault Refusal :=
  if s.resetLine then .next (answer .unanswered s) else transact off a s

/-- One event at the port. An address outside the block's own window does not reach it (R53,
R171). -/
def handle (e : PortEvent) (s : State) : Host.Outcome State Fault Refusal :=
  match e with
  | .transaction off a => arrive off a s
  | .atAddress addr a =>
    match windowOffset s.window addr with
    | some off => arrive off a s
    | none => .next (answer .unanswered s)
  | .resetInput true => .next (assertReset s)
  | .resetInput false => .next (releaseReset s)
  | .powerUp => .next (assertReset s)

/-- The next event, in arrival order (R47). With none, nothing happens: the block acts only on what arrives (R21). -/
def takeNext (s : State) : Host.Outcome State Fault Refusal :=
  match s.pending with
  | [] => .next s
  | e :: rest => handle e { s with pending := rest }

/-- A host's aligned 32-bit write with every byte enabled (R45). -/
def busWrite (off : BitVec 6) (d : Word) : PortEvent := .transaction off (.write 4 d 0b1111#4)

/-- A host's aligned 32-bit read (R45). -/
def busRead (off : BitVec 6) : PortEvent := .transaction off (.read 4)

end Sys2Proof.Machine
end

