-- ==== Sys2Proof/Machine/Step.lean ====
section
/-! DEFINITION. The step (43_host_access.md R140), and the placing of a command word where the next step takes it. -/

namespace Sys2Proof.Machine

/-- One step: the next event at the port is taken, with all its effects (R47, R140). -/
def step (s : State) : Host.Outcome State Fault Refusal := takeNext s

/-- `s` with a host's write of the command word to CMD arriving next (R21, R144), and the reset input released so that it
is taken. The block fetches nothing (R50): this write stands for the fetch (log entry 3). -/
def State.withFetchWord (s : State) (nbits w : Nat) : State :=
  { s with
    resetLine := false
    pending := busWrite RegName.cmd.offset (BitVec.ofNat 32 (w % 2 ^ nbits)) :: s.pending }

end Sys2Proof.Machine
end

