-- ==== Sys2Proof/Machine/HostAssembly.lean ====
section
/-! DEFINITION. The host-side assembly (30_encoding.md R66, R67) and the boot sequence (70_reset_and_hazards.md R182): a
layer that expands to port events. The block sees only the expanded transactions (R67). -/

namespace Sys2Proof.Machine

/-- `<V>` of a mnemonic (R66). -/
def variantText : Variant → String
  | .rgbm => "RGBM"
  | .rgbd => "RGBD"
  | .rgbd2 => "RGBD2"
  | .rgbe => "RGBE"

/-- The lower-case selection name of a variant, also accepted as `<V>` (R2, R66). -/
def selectionName : Variant → String
  | .rgbm => "rgbm"
  | .rgbd => "rgbd"
  | .rgbd2 => "rgbd2"
  | .rgbe => "rgbe"

/-- The mnemonic of a command (R63, R66). -/
def mnemonicOf : Instr → String
  | .nop => "NOP"
  | .encRgbm => "ENC." ++ variantText .rgbm
  | .encRgbd => "ENC." ++ variantText .rgbd
  | .encRgbd2 => "ENC." ++ variantText .rgbd2
  | .encRgbe => "ENC." ++ variantText .rgbe
  | .decRgbm => "DEC." ++ variantText .rgbm
  | .decRgbd => "DEC." ++ variantText .rgbd
  | .decRgbd2 => "DEC." ++ variantText .rgbd2
  | .decRgbe => "DEC." ++ variantText .rgbe

/-- Every spelling of a mnemonic that R66 accepts, with its command. -/
def mnemonicTable : List (String × Instr) :=
  ("NOP", Instr.nop) ::
    [Variant.rgbm, Variant.rgbd, Variant.rgbd2, Variant.rgbe].flatMap fun v =>
      [("ENC." ++ variantText v, Instr.encodeOf v), ("ENC." ++ selectionName v, Instr.encodeOf v),
        ("DEC." ++ variantText v, Instr.decodeOf v), ("DEC." ++ selectionName v, Instr.decodeOf v)]

/-- The command a mnemonic names (R66). -/
def parseMnemonic (m : String) : Option Instr := mnemonicTable.lookup m

/-- One hexadecimal digit, capitals as in R7's `0xHHHHHHHH`. -/
def hexDigit (n : Nat) : Char :=
  if n < 10 then Char.ofNat (48 + n) else Char.ofNat (55 + n)

/-- A word as `0xHHHHHHHH` (R7). -/
def hexWord (w : Word) : String :=
  "0x" ++ String.ofList ([7, 6, 5, 4, 3, 2, 1, 0].map fun k => hexDigit (w.toNat / 16 ^ k % 16))

/-- The disassembler (R66): a reserved word prints as `.word 0xHHHHHHHH`. -/
def disassemble (w : Word) : String :=
  match decodeCmd w with
  | .ok i => mnemonicOf i
  | .error _ => ".word " ++ hexWord w

/-- `<value32>` (R66): hex, `f:<number>`, or `px(b0, b1, b2, b3)`. -/
inductive HostValue where
  | hex (w : Word)
  | float (q : ℚ)
  | px (b0 b1 b2 b3 : Byte)
deriving DecidableEq, Repr

/-- The word of a value. `f:` means `RNE32` (R66), which R12 defines for `q ≥ 0` with an exponent of at most 127; a
number outside that has no word (log entry 11). -/
def HostValue.word : HostValue → Option Word
  | .hex w => some w
  | .float q => if 0 ≤ q ∧ q < 2 ^ 128 - 2 ^ 103 then some (rne32 q) else none
  | .px b0 b1 b2 b3 => some (pack b0 b1 b2 b3)

/-- `<reg>` (R66): a register name or a hex offset. -/
inductive HostReg where
  | name (r : RegName)
  | hex (off : BitVec 6)
deriving DecidableEq, Repr

/-- The offset a `<reg>` stands for. -/
def HostReg.offset : HostReg → BitVec 6
  | .name r => r.offset
  | .hex off => off

/-- A line of host code: the notations of R66 and the pseudo-instructions of R67. -/
inductive HostLine where
  | wr (r : HostReg) (v : HostValue)
  | wrCmd (i : Instr)
  | rd (r : HostReg)
  | encpx (v : Variant) (r g b : HostValue)
  | decpx (v : Variant) (w : HostValue)
  | setrange (x : HostValue)
  | clrst
  | getpx
deriving DecidableEq, Repr

/-- One `WR` (R66). -/
def wrEvent (off : BitVec 6) (v : HostValue) : Option PortEvent := (v.word).map (busWrite off)

/-- The transactions of a line, in order (R66, R67). -/
def HostLine.expand : HostLine → Option (List PortEvent)
  | .wr r v => (wrEvent r.offset v).map fun e => [e]
  | .wrCmd i => some [busWrite RegName.cmd.offset (encode i)]
  | .rd r => some [busRead r.offset]
  | .encpx v r g b =>
    match wrEvent RegName.in0.offset r, wrEvent RegName.in1.offset g, wrEvent RegName.in2.offset b with
    | some e0, some e1, some e2 => some [e0, e1, e2, busWrite RegName.cmd.offset (encode (Instr.encodeOf v))]
    | _, _, _ => none
  | .decpx v w =>
    (wrEvent RegName.in0.offset w).map fun e => [e, busWrite RegName.cmd.offset (encode (Instr.decodeOf v))]
  | .setrange x => (wrEvent RegName.range.offset x).map fun e => [e]
  | .clrst => some [busWrite RegName.status.offset 0x000000FF#32]
  | .getpx => some [busRead RegName.out0.offset, busRead RegName.out1.offset, busRead RegName.out2.offset]

/-- The transactions of a whole host program, in order; none if a line has none. -/
def expandLines : List HostLine → Option (List PortEvent)
  | [] => some []
  | l :: ls =>
    match l.expand, expandLines ls with
    | some es, some rest => some (es ++ rest)
    | _, _ => none

/-- The boot sequence of R182, steps 2 to 4 (step 1, the mapping of the window, is the platform's): read ID, set RANGE
for a run that needs another range and read it back with STATUS, clear STATUS. -/
def bootLines (range : Option HostValue) : List HostLine :=
  [HostLine.rd (.name .id)] ++
    (match range with
      | some x => [.setrange x, .rd (.name .status), .rd (.name .range)]
      | none => []) ++
    [.clrst]

end Sys2Proof.Machine
end

