-- ==== Sys2Proof/Machine/Instances.lean ====
section
/-! DEFINITION. A platform with several blocks (60_exceptions.md R171): each has its own window and its own state, and
none is shared. -/

namespace Sys2Proof.Machine

/-- `NUM_INSTANCES` blocks after reset, block `k` wired to window `k` (R6, R171; log entry 22). -/
def platformReset : List State :=
  (List.range Config.numInstances).map fun k => { State.reset with window := k }

/-- Each block is wired to a window of its own: block `k` to window `k` (R171). -/
def OwnWindows (p : List State) : Prop := ∀ (k : Nat) (s : State), p[k]? = some s → s.window = k

/-- Block `k` takes the next event at its own port; the other blocks take nothing (R171). -/
def stepInstance (k : Nat) (p : List State) : Host.Outcome (List State) Fault Refusal :=
  match p[k]? with
  | none => .next p
  | some s =>
    match step s with
    | .next t => .next (p.set k t)
    | .fault r => .fault r
    | .refused r => .refused r

/-- A host's access by platform address arrives at the block in whose window the address lies, after what already waits
there (R40, R47, R53, R171); at no other block. -/
def hostAccess (addr : Nat) (a : Access) (p : List State) : List State :=
  p.map fun s =>
    match windowOffset s.window addr with
    | some _ => { s with pending := s.pending ++ [.atAddress addr a] }
    | none => s

end Sys2Proof.Machine
end

