-- ==== Sys2Proof/Safety.lean ====
section
/-! DEFINITION. What a sound state is, in the terms the statements use: the invariants of 10_state.md R23 and R24, what
42_decode.md R124 promises of the results, and what an asserted reset holds (70_reset_and_hazards.md R180). -/

namespace Sys2Proof.Machine

/-- RANGE holds a legal pattern (R23). -/
def RangeIsLegal (s : State) : Prop := legalRange s.regs.range = true

/-- The reserved bits 31:8 of STATUS hold 0 (R24). -/
def StatusReservedIsZero (s : State) : Prop := s.regs.status.toNat < 2 ^ 8

/-- OUT1 and OUT2 hold non-negative finite binary32 patterns: 0 from reset and from an encode (R31), a decode's result
otherwise (R124). -/
def ResultsAreFinite (s : State) : Prop :=
  isFiniteNonneg s.regs.out1 = true ∧ isFiniteNonneg s.regs.out2 = true

/-- While reset is asserted the registers stay at their reset values (R180). -/
def ResetHoldsRegisters (s : State) : Prop := s.resetLine = true → s.regs = Regs.reset

/-- The invariant every step keeps. -/
structure State.Sound (s : State) : Prop where
  range : RangeIsLegal s
  status : StatusReservedIsZero s
  results : ResultsAreFinite s
  held : ResetHoldsRegisters s

/-- The next event at the port is this transaction, and it will be taken: reset is not asserted (R180). It may come as a
transaction at the port (R140) or by a platform address inside the block's own window (R40, R53, R171). -/
def NextTransaction (s : State) (off : BitVec 6) (a : Access) (rest : List PortEvent) : Prop :=
  s.resetLine = false ∧
    (s.pending = .transaction off a :: rest ∨
      ∃ addr, s.pending = .atAddress addr a :: rest ∧ windowOffset s.window addr = some off)

/-- The next event is a host's aligned-size, whole 32-bit write (R45). -/
def NextWrite (s : State) (off : BitVec 6) (d : Word) (rest : List PortEvent) : Prop :=
  NextTransaction s off (.write 4 d 0b1111#4) rest

/-- The next event asserts reset (R173, R180). -/
def NextReset (s : State) : Prop :=
  ∃ rest, s.pending = .resetInput true :: rest ∨ s.pending = .powerUp :: rest

/-- The state after the next transaction, when it changes the registers to `r` and answers `a`. -/
def AfterTransaction (s : State) (rest : List PortEvent) (a : Reply) (r : Regs) : State :=
  { regs := r, window := s.window, resetLine := s.resetLine, pending := rest, replies := s.replies ++ [a] }

/-- `y` is `q` rounded to the nearest binary32, ties to the even fraction (R12), said without computing it: no
non-negative finite pattern is nearer, and where another is as near, `y` has the even fraction. -/
def IsRne32 (q : ℚ) (y : Word) : Prop :=
  isFiniteNonneg y = true ∧
    ∀ z : Word, isFiniteNonneg z = true →
      |val y - q| ≤ |val z - q| ∧ (z ≠ y → |val z - q| = |val y - q| → y.getLsbD 0 = false)

/-- Byte `k` of a packed word: bits `8k+7:8k` (R42). -/
def byteOf (w : Word) (k : Nat) : Nat := w.toNat / 256 ^ k % 256

/-- The input flags of an encode as STATUS bits, read off the patterns (R84): a NaN of either sign sets bit 0, a
negative non-zero value or `-Inf` bit 1, `+Inf` bit 2. -/
def inputFlagBits (xs : List Word) : Word :=
  (if ∃ x ∈ xs, 0x7F800000 < x.toNat % 2 ^ 31 then 0x01#32 else 0) |||
    (if ∃ x ∈ xs, 0x80000000 < x.toNat ∧ x.toNat ≤ 0xFF800000 then 0x02#32 else 0) |||
    (if ∃ x ∈ xs, x.toNat = 0x7F800000 then 0x04#32 else 0)

end Sys2Proof.Machine
end

