-- ==== Sys2Proof/Certificates/Slice0/Obligations.lean ====
section
/-! DEFINITION. The statements for the provers. Every docstring names the rules of spec/ it formalises. Where a
statement speaks of `pending`, `replies` or `resetLine`, it speaks of the model's own port fields (log entries 1, 3, 4
and 5), which stand for what the spec places outside the block. -/

open Sys2Proof Sys2Proof.Machine

/-! ### Encoding -/

/-- R63: the nine words are the commands, each its own; every other word is reserved. -/
def Obligations.DecodeAcceptsExactlyTheNineWords : Prop :=
  ∀ (w : Word) (i : Instr), decodeCmd w = .ok i ↔ (w, i) ∈
    [(0x00000000#32, Instr.nop),
      (0x00000001#32, Instr.encRgbm), (0x00000011#32, Instr.encRgbd),
      (0x00000021#32, Instr.encRgbd2), (0x00000031#32, Instr.encRgbe),
      (0x00000002#32, Instr.decRgbm), (0x00000012#32, Instr.decRgbd),
      (0x00000022#32, Instr.decRgbd2), (0x00000032#32, Instr.decRgbe)]

/-- Decode and encode agree on every command, and no other word decodes to a command (R60 to R64). -/
def Obligations.DecodeAndEncodeAgree : Prop :=
  ∀ (w : Word) (i : Instr), i.wf = true → (decodeCmd w = .ok i ↔ w = encode i)

/-- R64: the reserved words, with the reason the decoder names for each; the order of the tests is R63's, the
names of the reasons are the model's (log entry 21). -/
def Obligations.ReservedWordsNameTheirReason : Prop :=
  ∀ w : Word,
    (decodeCmd w = .error .rsvSet ↔ 64 ≤ w.toNat) ∧
    (decodeCmd w = .error .nopWithVariant ↔ w = 0x10#32 ∨ w = 0x20#32 ∨ w = 0x30#32) ∧
    (decodeCmd w = .error .opReserved ↔ w.toNat < 64 ∧ 3 ≤ w.toNat % 16)

/-- R60, R62, R64: a word decodes exactly when its fields pass the three checks, and the fields lose no bit of it. -/
def Obligations.CommandFieldsDecideTheWord : Prop :=
  ∀ w : Word, ((∃ i, decodeCmd w = .ok i) ↔ (cmdFields w).wf = true) ∧ (cmdFields w).word = w

/-- R63: one word of each family decodes to its command, and a word with a reserved bit to none. -/
def Obligations.TableWordsDecode : Prop :=
  decodeTableWord 32 0x00 = some .nop ∧ decodeTableWord 32 0x21 = some .encRgbd2 ∧
    decodeTableWord 32 0x31 = some .encRgbe ∧ decodeTableWord 32 0x12 = some .decRgbd ∧
    decodeTableWord 32 0x41 = none

/-! ### The step -/

/-- R144: when the next transaction writes a command's word to CMD, the step is that command, run on the state after the
transaction has been taken off the port and answered. The bookkeeping of the port is the model's (log entries 1, 3). -/
def Obligations.StepRunsTheDecodedCommand : Prop :=
  ∀ (s : State) (w : Word) (i : Instr) (rest : List PortEvent),
    NextWrite s 0x0C w rest → decodeCmd w = .ok i → i.wf = true →
    step s = exec i (AfterTransaction s rest .written s.regs)

/-- The model's stand-in for a fetch (log entry 3): the very next step runs the placed word's command. -/
def Obligations.PlacedWordRunsNext : Prop :=
  ∀ (s : State) (nbits w : Nat) (i : Instr), decodeTableWord nbits w = some i →
    step (s.withFetchWord nbits w) =
      exec i { s with resetLine := false, replies := s.replies ++ [.written] }

/-- R145: a reserved word written to CMD sets CMD_ERR and changes no other register and no other bit of STATUS. -/
def Obligations.ReservedWordSetsOnlyCmdErr : Prop :=
  ∀ (s : State) (w : Word) (e : ReservedWord) (rest : List PortEvent),
    NextWrite s 0x0C w rest → decodeCmd w = .error e →
    ∃ t, step s = .next t ∧ t.regs = { s.regs with status := s.regs.status ||| 0x80#32 }

/-- R44, R45, R162: an access that is misaligned, not 32 bits wide, or a write without all four byte enables, is answered
with BusError and changes no register. The list of answers is the model's (log entries 1 and 8). -/
def Obligations.RefusedAccessIsBusErrorOnly : Prop :=
  ∀ (s : State) (off : BitVec 6) (a : Access) (rest : List PortEvent), NextTransaction s off a rest →
    (off.toNat % 4 ≠ 0 ∨ (∃ n, a = .read n ∧ n ≠ 4) ∨ (∃ n d be, a = .write n d be ∧ (n ≠ 4 ∨ be ≠ 0b1111#4))) →
    step s = .next (AfterTransaction s rest .busError s.regs)

/-- R25, R26, R54, R141: an admitted read answers the register at its offset, STATUS with bits 31:8 as 0, ID its
constant, CMD and the reserved offsets 0, and changes no register. The list of answers is the model's (log entry 1). -/
def Obligations.ReadAnswersTheRegister : Prop :=
  ∀ (s : State) (off : BitVec 6) (rest : List PortEvent),
    NextTransaction s off (.read 4) rest → off.toNat % 4 = 0 →
    let v : Word :=
      if off = 0x00 then 0x52474258#32 else if off = 0x04 then s.regs.range
      else if off = 0x08 then (s.regs.status.setWidth 8).setWidth 32
      else if off = 0x10 then s.regs.in0 else if off = 0x14 then s.regs.in1 else if off = 0x18 then s.regs.in2
      else if off = 0x1C then s.regs.out0 else if off = 0x20 then s.regs.out1 else if off = 0x24 then s.regs.out2
      else 0
    step s = .next (AfterTransaction s rest (.data v) s.regs)

/-- R142: a pattern of `0x00000001` to `0x7F7FFFFF` is stored, any other leaves RANGE and sets RANGE_ERR. -/
def Obligations.RangeWriteStoresOrSetsRangeErr : Prop :=
  ∀ (s : State) (d : Word) (rest : List PortEvent), NextWrite s 0x04 d rest →
    ∃ t, step s = .next t ∧ t.regs =
      if 0x00000001 ≤ d.toNat ∧ d.toNat ≤ 0x7F7FFFFF then { s.regs with range := d }
      else { s.regs with status := s.regs.status ||| 0x40#32 }

/-- R143: each of the bits 7:0 of STATUS that is written 1 becomes 0, every other bit and register stays. -/
def Obligations.StatusWriteClearsItsOnes : Prop :=
  ∀ (s : State) (d : Word) (rest : List PortEvent), NextWrite s 0x08 d rest →
    ∃ t, step s = .next t ∧ t.regs = { s.regs with status := t.regs.status } ∧
      ∀ i, t.regs.status.getLsbD i = if i < 8 ∧ d.getLsbD i = true then false else s.regs.status.getLsbD i

/-- R147: a write to IN0, IN1 or IN2 stores the word, whatever it is, and changes nothing else. -/
def Obligations.InputWriteStoresTheWord : Prop :=
  ∀ (s : State) (d : Word) (rest : List PortEvent),
    (NextWrite s 0x10 d rest → ∃ t, step s = .next t ∧ t.regs = { s.regs with in0 := d }) ∧
    (NextWrite s 0x14 d rest → ∃ t, step s = .next t ∧ t.regs = { s.regs with in1 := d }) ∧
    (NextWrite s 0x18 d rest → ∃ t, step s = .next t ∧ t.regs = { s.regs with in2 := d })

/-- R148 and the write half of R54: a write to ID, OUT0, OUT1, OUT2 or a reserved offset is ignored, and is no BusError
(its answer is that of an admitted write). The list of answers is the model's (log entry 1). -/
def Obligations.ReadOnlyWriteIsIgnored : Prop :=
  ∀ (s : State) (off : BitVec 6) (d : Word) (rest : List PortEvent), NextWrite s off d rest → off.toNat % 4 = 0 →
    (off = 0x00 ∨ 0x1C ≤ off.toNat) → step s = .next (AfterTransaction s rest .written s.regs)

/-- R149 ("never a hang"): from every state, any number of steps completes, each taking the next event in arrival order
(R47); no step faults or refuses. The list of pending events is the model's (log entries 1 and 2). -/
def Obligations.EveryRunCompletes : Prop :=
  ∀ (k : Nat) (s : State), ∃ t : State, Host.Core.run Sys2Proof.core k s = .next t ∧ t.pending = s.pending.drop k

/-- R47, R140: the model records exactly one entry for each transaction, after the earlier ones, and none for any other
event. The record is the model's (log entry 1): for a transaction during reset or outside the window the block gives no
answer (R180, R53), and the entry is then the mark `unanswered` (log entries 4 and 5). -/
def Obligations.EachTransactionIsAnsweredOnce : Prop :=
  ∀ (s : State) (e : PortEvent) (rest : List PortEvent), s.pending = e :: rest →
    ∃ t, step s = .next t ∧ t.pending = rest ∧
      match e with
      | .transaction _ _ => ∃ r, t.replies = s.replies ++ [r]
      | .atAddress _ _ => ∃ r, t.replies = s.replies ++ [r]
      | .resetInput _ => t.replies = s.replies
      | .powerUp => t.replies = s.replies

/-- R20, R21: with nothing arriving, nothing changes (the model's idle step, log entry 2). -/
def Obligations.IdleBlockKeepsItsState : Prop :=
  ∀ s : State, s.pending = [] → step s = .next s

/-- R40, R53: the block's BASE is a multiple of 64; an access by platform address inside the block's window is the
transaction at the address's low six bits; outside it, no register changes. What the bus then answers is the
platform's: that the model records `unanswered` is its own (log entry 5). -/
def Obligations.AddressesReachOnlyTheWindow : Prop :=
  (∀ k, Config.base k % 64 = 0) ∧
  ∀ (s : State) (addr : Nat) (a : Access) (rest : List PortEvent), s.pending = .atAddress addr a :: rest →
    if Config.base s.window ≤ addr ∧ addr < Config.base s.window + 64 then
      step s = step { s with pending := .transaction (BitVec.ofNat 6 addr) a :: rest }
    else step s = .next (AfterTransaction s rest .unanswered s.regs)

/-! ### Reset and whole-machine rules -/

/-- R35: the values after reset, as the state holds them and as the constants ID and CMD read. -/
def Obligations.ResetGivesTheTableOfValues : Prop :=
  State.reset.regs =
      { range := 0x41000000#32, status := 0, in0 := 0, in1 := 0, in2 := 0, out0 := 0, out1 := 0, out2 := 0 } ∧
    readReg State.reset.regs 0x00 = 0x52474258#32 ∧ readReg State.reset.regs 0x0C = 0

/-- R173, R180: asserting the reset input, or power-up, puts every register at its reset value from any state; while it
is asserted a transaction changes no register; releasing it changes none. The answer `unanswered` is the model's
(log entries 4 and 12). -/
def Obligations.ResetInputRestoresEveryRegister : Prop :=
  ∀ (s : State),
    (NextReset s → ∃ t, step s = .next t ∧ t.regs = State.reset.regs ∧ t.resetLine = true) ∧
    (∀ off a rest, s.resetLine = true → s.pending = .transaction off a :: rest →
      step s = .next (AfterTransaction s rest .unanswered s.regs)) ∧
    (∀ rest, s.pending = .resetInput false :: rest → step s = .next { s with resetLine := false, pending := rest })

/-- R23, R24, R124, R180: a sound state stays sound. RANGE is legal, the reserved bits of STATUS are 0, OUT1 and OUT2
hold non-negative finite numbers, and an asserted reset holds every register at its reset value. -/
def Obligations.SoundStateStaysSound : Prop :=
  ∀ s t : State, s.Sound → step s = .next t → t.Sound

/-- R35: the state after reset is sound. -/
def Obligations.ResetStateIsSound : Prop := State.reset.Sound

/-- R24: a STATUS bit that is 1 becomes 0 only by a write of 1 to it at STATUS, or by reset. -/
def Obligations.StatusBitsAreSticky : Prop :=
  ∀ (s t : State) (i : Nat), step s = .next t → s.regs.status.getLsbD i = true → t.regs.status.getLsbD i = false →
    NextReset s ∨ ∃ d rest, NextWrite s 0x08 d rest ∧ i < 8 ∧ d.getLsbD i = true

/-- R24, R161: a STATUS bit becomes 1 only by the event named for it: bits 0 to 2 by an encode, 3 by ENC.RGBM, ENC.RGBD2
or ENC.RGBE, 4 by DEC.RGBD or DEC.RGBD2, 5 by ENC.RGBE, 6 by a rejected RANGE write, 7 by a reserved command word. -/
def Obligations.StatusBitsHaveTheirOwnCause : Prop :=
  ∀ (s t : State) (i : Nat), step s = .next t → s.regs.status.getLsbD i = false → t.regs.status.getLsbD i = true →
    (i = 6 ∧ ∃ d rest, NextWrite s 0x04 d rest ∧ ¬ (0x00000001 ≤ d.toNat ∧ d.toNat ≤ 0x7F7FFFFF)) ∨
    (i = 7 ∧ ∃ w rest e, NextWrite s 0x0C w rest ∧ decodeCmd w = .error e) ∨
    ∃ w rest c, NextWrite s 0x0C w rest ∧ decodeCmd w = .ok c ∧
      ((i < 3 ∧ c ∈ [Instr.encRgbm, Instr.encRgbd, Instr.encRgbd2, Instr.encRgbe]) ∨
        (i = 3 ∧ c ∈ [Instr.encRgbm, Instr.encRgbd2, Instr.encRgbe]) ∨
        (i = 4 ∧ c ∈ [Instr.decRgbd, Instr.decRgbd2]) ∨ (i = 5 ∧ c = Instr.encRgbe))

/-- R23, R142: RANGE changes only by an accepted write to it, or by reset; no command changes it. -/
def Obligations.RangeChangesOnlyByItsWrite : Prop :=
  ∀ s t : State, step s = .next t → t.regs.range ≠ s.regs.range →
    NextReset s ∨ ∃ d rest, NextWrite s 0x04 d rest ∧ legalRange d = true ∧ t.regs.range = d

/-- R27, R28, R29: IN0 to IN2 change only by a write to them, or by reset; no command writes them. -/
def Obligations.InputsChangeOnlyByTheirWrites : Prop :=
  ∀ s t : State, step s = .next t →
    (t.regs.in0 ≠ s.regs.in0 → NextReset s ∨ ∃ d rest, NextWrite s 0x10 d rest ∧ t.regs.in0 = d) ∧
    (t.regs.in1 ≠ s.regs.in1 → NextReset s ∨ ∃ d rest, NextWrite s 0x14 d rest ∧ t.regs.in1 = d) ∧
    (t.regs.in2 ≠ s.regs.in2 → NextReset s ∨ ∃ d rest, NextWrite s 0x18 d rest ∧ t.regs.in2 = d)

/-- R30, R31: OUT0 to OUT2 change only by a CMD write of an ENCODE or DECODE word, or by reset; NOP, reserved words and
host writes leave them. -/
def Obligations.ResultsChangeOnlyByCommands : Prop :=
  ∀ s t : State, step s = .next t →
    (t.regs.out0 ≠ s.regs.out0 ∨ t.regs.out1 ≠ s.regs.out1 ∨ t.regs.out2 ≠ s.regs.out2) →
    NextReset s ∨ ∃ w rest i, NextWrite s 0x0C w rest ∧ decodeCmd w = .ok i ∧ i ≠ .nop

/-- R171: a step of one block leaves every other block's state alone, and is that block's own step. That the
instances stand in a list is the model's (log entry 17); where their windows lie too (log entry 22). -/
def Obligations.InstancesShareNothing : Prop :=
  ∀ (p : List State) (k : Nat) (s : State), p[k]? = some s →
    ∃ t q, step s = .next t ∧ stepInstance k p = .next q ∧ q.length = p.length ∧ q[k]? = some t ∧
      ∀ j, j ≠ k → q[j]? = p[j]?

/-- R171: each block has its own window. No address lies in two windows; after reset each block is wired to its own and no
step rewires it; a host's access by address arrives at the block whose window holds it and leaves every other block
alone. Where the windows lie, and their numbering, are the model's (log entries 17 and 22). -/
def Obligations.InstancesHaveTheirOwnWindows : Prop :=
  (∀ j k addr off off', windowOffset j addr = some off → windowOffset k addr = some off' → j = k) ∧
  OwnWindows platformReset ∧
  (∀ p q k, OwnWindows p → stepInstance k p = .next q → OwnWindows q) ∧
  ∀ (p : List State) (addr : Nat) (a : Access), OwnWindows p →
    OwnWindows (hostAccess addr a p) ∧
    (∀ (k : Nat) (s : State) (off : BitVec 6), p[k]? = some s → windowOffset k addr = some off →
      (hostAccess addr a p)[k]? = some { s with pending := s.pending ++ [.atAddress addr a] } ∧
      ∀ j, j ≠ k → (hostAccess addr a p)[j]? = p[j]?) ∧
    ((∀ k, k < p.length → windowOffset k addr = none) → hostAccess addr a p = p)

/-! ### Properties common to the commands -/

/-- R65, R80: what a command computes, and which STATUS bits it sets, depends only on the registers it reads: the RANGE
only for RGBM and RGBD2, IN1 and IN2 only for an encode, and never on STATUS, on the old results or on the port. -/
def Obligations.CommandsDependOnlyOnTheirOperands : Prop :=
  ∀ (i : Instr) (s s' : State), i ≠ .nop → s.regs.in0 = s'.regs.in0 →
    (i ∈ [Instr.decRgbm, Instr.decRgbd, Instr.decRgbd2, Instr.decRgbe] ∨
      (s.regs.in1 = s'.regs.in1 ∧ s.regs.in2 = s'.regs.in2)) →
    (i ∈ [Instr.encRgbd, Instr.encRgbe, Instr.decRgbd, Instr.decRgbe] ∨ s.regs.range = s'.regs.range) →
    ∃ t t' m, exec i s = .next t ∧ exec i s' = .next t' ∧ t.regs.out0 = t'.regs.out0 ∧ t.regs.out1 = t'.regs.out1 ∧
      t.regs.out2 = t'.regs.out2 ∧ t.regs.status = s.regs.status ||| m ∧ t'.regs.status = s'.regs.status ||| m ∧
      m.toNat < 64

/-- R46: a command repeated on unchanged inputs changes nothing more. -/
def Obligations.CommandsAreIdempotent : Prop :=
  ∀ (i : Instr) (s : State), ∃ t, exec i s = .next t ∧ exec i t = .next t

/-- R104, R124: no command writes RANGE, IN0 to IN2 or the port; an encode leaves OUT1 = OUT2 = 0; at every offset of the
window but those of STATUS and OUT0 to OUT2 a read gives what it gave before. -/
def Obligations.CommandsLeaveTheRestUnchanged : Prop :=
  ∀ (i : Instr) (s : State), ∃ t, exec i s = .next t ∧
    t = { s with regs := { s.regs with
            out0 := t.regs.out0, out1 := t.regs.out1, out2 := t.regs.out2, status := t.regs.status } } ∧
    (i ∈ [Instr.encRgbm, Instr.encRgbd, Instr.encRgbd2, Instr.encRgbe] → t.regs.out1 = 0 ∧ t.regs.out2 = 0) ∧
    ∀ off : BitVec 6, off ∉ [0x08#6, 0x1C#6, 0x20#6, 0x24#6] → readReg t.regs off = readReg s.regs off

/-- R164's example: ENC.RGBE with IN = (+Inf, NaN, -1.0) sets IN_INF, IN_NAN, IN_NEG and SAT together. -/
def Obligations.FlagsOfOneCommandAreSetTogether : Prop :=
  ∀ s : State, s.regs.in0 = 0x7F800000#32 → s.regs.in1 = 0x7FC00000#32 → s.regs.in2 = 0xBF800000#32 →
    ∃ t, exec .encRgbe s = .next t ∧ t.regs.status = s.regs.status ||| 0x0F#32 ∧ t.regs.out0 = 0xFF0000FF#32

/-! ### The datapath units -/

/-- R84: the sanitiser on each class of pattern, and the classes are all of them: NaN, +Inf, -0, negative, and the rest. -/
def Obligations.SanitiserTreatsEachClass : Prop :=
  ∀ x : Word,
    (0x7F800000 < x.toNat % 2 ^ 31 → san x = { value := 0, flags := [.inNan] }) ∧
    (x.toNat = 0x7F800000 → san x = { value := (2 ^ 24 - 1) * 2 ^ 104, flags := [.inInf] }) ∧
    (x.toNat = 0x80000000 → san x = { value := 0, flags := [] }) ∧
    (0x80000000 < x.toNat ∧ x.toNat ≤ 0xFF800000 → san x = { value := 0, flags := [.inNeg] }) ∧
    (x.toNat < 0x7F800000 → san x = { value := val x, flags := [] })

/-- R84, R90: every sanitised value lies in 0 to MAXF. -/
def Obligations.SanitisedValueIsBounded : Prop :=
  ∀ x : Word, 0 ≤ (san x).value ∧ (san x).value ≤ (2 ^ 24 - 1) * 2 ^ 104

/-- R10: for sign 0 the value of a finite pattern grows strictly with the pattern, from `+0` up to MAXF. -/
def Obligations.ValueGrowsWithThePattern : Prop :=
  ∀ x y : Word, isFiniteNonneg x = true → isFiniteNonneg y = true → (val x < val y ↔ x.toNat < y.toNat)

/-- R91: the floor threshold as a boundary between patterns. -/
def Obligations.FloorThresholdIsAPatternBoundary : Prop :=
  ∀ x : Word, isFiniteNonneg x = true → (val x < 1 / 10 ^ 32 ↔ x.toNat < 0x0A4FB11F)

/-- R12: `RNE32` gives the nearest binary32, ties to the even fraction, for every rational of 0 to MAXF, and `+0` for 0. -/
def Obligations.Rne32IsTheNearestTiesToEven : Prop :=
  (∀ q : ℚ, 0 ≤ q → q ≤ (2 ^ 24 - 1) * 2 ^ 104 → IsRne32 q (rne32 q)) ∧ rne32 0 = 0x00000000#32

/-- R12: `RNE32` keeps every value that is already a non-negative finite binary32. -/
def Obligations.Rne32KeepsBinary32Values : Prop :=
  ∀ x : Word, isFiniteNonneg x = true → rne32 (val x) = x

/-- R89: `FREXP` gives the unique pair. -/
def Obligations.FrexpGivesTheUniquePair : Prop :=
  ∀ M : ℚ, 0 < M → ∀ (m : ℚ) (e : ℤ),
    (M = m * 2 ^ e ∧ 1 / 2 ≤ m ∧ m < 1) ↔ (m = (frexp M).m ∧ e = (frexp M).e)

/-- R90: the exponents `SES` meets and gives, and the exponent bytes of ENC.RGBE: 22 to 255, but for the floor pixel. -/
def Obligations.SharedExponentStaysInRange : Prop :=
  (∀ M : ℚ, 1 / 10 ^ 32 ≤ M → M ≤ (2 ^ 24 - 1) * 2 ^ 104 →
    -106 ≤ (frexp M).e ∧ (frexp M).e ≤ 128 ∧ -106 ≤ (ses M).e ∧ (ses M).e ≤ 127) ∧
  ∀ s : State, ∃ t, exec .encRgbe s = .next t ∧ (t.regs.out0 = 0 ∨ 22 ≤ byteOf t.regs.out0 3)

/-- R85, R86: the clamped-ratio quantizer is the rounded clamped ratio, always within a byte, and 255 from ratio 1 up. -/
def Obligations.ClampedRatioStaysInAByte : Prop :=
  ∀ c s : ℚ, 0 ≤ c → 0 < s →
    (crq c s : ℤ) = ⌊255 * min (c / s) 1 + 1 / 2⌋ ∧ crq c s ≤ 255 ∧ (s ≤ c → crq c s = 255) ∧
      (c ≤ s → |(crq c s : ℚ) - 255 * c / s| ≤ 1 / 2)

/-- R13, R42: byte `k` of a packed pixel is bits `8k+7:8k`, packing and unpacking undo each other, and R42's example. -/
def Obligations.PackedBytesKeepTheirPlaces : Prop :=
  (∀ b0 b1 b2 b3 : Byte,
    byteOf (pack b0 b1 b2 b3) 0 = b0.toNat ∧ byteOf (pack b0 b1 b2 b3) 1 = b1.toNat ∧
      byteOf (pack b0 b1 b2 b3) 2 = b2.toNat ∧ byteOf (pack b0 b1 b2 b3) 3 = b3.toNat) ∧
  (∀ w : Word, pack (unpack w).b0 (unpack w).b1 (unpack w).b2 (unpack w).b3 = w) ∧
  pack 254 127 0 128 = 0x80007FFE#32

/-! ### The commands -/

/-- R146: NOP changes no state. -/
def Obligations.NopChangesNothing : Prop :=
  encode .nop = 0x00000000#32 ∧ ∀ s : State, exec .nop s = .next s

/-- R100: ENC.RGBM's bytes and flags. `M` is the largest sanitised channel, `A = ceil(255 * M / rho)`; a colour byte is
`round(65025 * c / (rho * A))` (no clamp ever changes it), the shared byte `min(A, 255)`, SAT exactly when `M > rho`. -/
def Obligations.EncRgbmResult : Prop :=
  encode .encRgbm = 0x00000001#32 ∧ ∀ s : State, RangeIsLegal s →
    let R := (san s.regs.in0).value
    let G := (san s.regs.in1).value
    let B := (san s.regs.in2).value
    let rho := val s.regs.range
    let M := max R (max G B)
    let A := ⌈255 * M / rho⌉₊
    let colour := fun c : ℚ => if M = 0 then 0 else ⌊65025 * c / (rho * A) + 1 / 2⌋₊
    (colour R ≤ 255 ∧ colour G ≤ 255 ∧ colour B ≤ 255) ∧ (M ≠ 0 → 1 ≤ A) ∧
    exec .encRgbm s = .next { s with regs := { s.regs with
      out0 := pack (byte (colour R)) (byte (colour G)) (byte (colour B)) (byte (min A 255))
      out1 := 0
      out2 := 0
      status := s.regs.status ||| inputFlagBits [s.regs.in0, s.regs.in1, s.regs.in2] |||
        (if rho < M then 0x08#32 else 0) } }

/-- R101: ENC.RGBD's bytes and flags. `M = max(R, 1, G, B)`; a colour byte is `floor(255 * c / M)`, the shared byte
`floor(255 / M)`; none exceeds 255, so SAT is never set; the largest channel, from 1 up, gives 255. -/
def Obligations.EncRgbdResult : Prop :=
  encode .encRgbd = 0x00000011#32 ∧ ∀ s : State,
    let R := (san s.regs.in0).value
    let G := (san s.regs.in1).value
    let B := (san s.regs.in2).value
    let M := max 1 (max R (max G B))
    let colour := fun c : ℚ => ⌊255 * c / M⌋₊
    (colour R ≤ 255 ∧ colour G ≤ 255 ∧ colour B ≤ 255 ∧ ⌊255 / M⌋₊ ≤ 255) ∧
    (∀ c ∈ [R, G, B], c = M → colour c = 255) ∧
    exec .encRgbd s = .next { s with regs := { s.regs with
      out0 := pack (byte (colour R)) (byte (colour G)) (byte (colour B)) (byte ⌊255 / M⌋₊)
      out1 := 0
      out2 := 0
      status := s.regs.status ||| inputFlagBits [s.regs.in0, s.regs.in1, s.regs.in2] } }

/-- R102: ENC.RGBD2's bytes and flags. `M = max(R, 1, G, B)`, `Dq = min(floor(max(rho / M, 1)), 255)`; a colour byte is
`floor(255 * c * Dq / rho)` saturated at 255, the shared byte is `Dq`; SAT exactly when the largest channel's byte was
saturated, which needs `M > rho`. -/
def Obligations.EncRgbd2Result : Prop :=
  encode .encRgbd2 = 0x00000021#32 ∧ ∀ s : State, RangeIsLegal s →
    let R := (san s.regs.in0).value
    let G := (san s.regs.in1).value
    let B := (san s.regs.in2).value
    let rho := val s.regs.range
    let C := max R (max G B)
    let M := max 1 C
    let Dq := min ⌊max (rho / M) 1⌋₊ 255
    let level := fun c : ℚ => ⌊255 * c * Dq / rho⌋₊
    (1 ≤ Dq ∧ Dq ≤ 255) ∧ (255 < level C → rho < M) ∧
    exec .encRgbd2 s = .next { s with regs := { s.regs with
      out0 := pack (byte (min (level R) 255)) (byte (min (level G) 255)) (byte (min (level B) 255)) (byte Dq)
      out1 := 0
      out2 := 0
      status := s.regs.status ||| inputFlagBits [s.regs.in0, s.regs.in1, s.regs.in2] |||
        (if 255 < level C then 0x08#32 else 0) } }

/-- R103: ENC.RGBE's bytes and flags. With `M` the largest sanitised channel: below `10^-32` four zero bytes, UFL unless
black; otherwise `e` with `2^(e-1) ≤ M < 2^e`, colour bytes `floor(c * 2^(8 - min(e, 127)))` saturated at 255, the shared
byte `min(e, 127) + 128`, SAT exactly when `M ≥ 2^127`. -/
def Obligations.EncRgbeResult : Prop :=
  encode .encRgbe = 0x00000031#32 ∧ ∀ s : State,
    let R := (san s.regs.in0).value
    let G := (san s.regs.in1).value
    let B := (san s.regs.in2).value
    let M := max R (max G B)
    let flags := s.regs.status ||| inputFlagBits [s.regs.in0, s.regs.in1, s.regs.in2]
    if M < 1 / 10 ^ 32 then
      exec .encRgbe s = .next { s with regs := { s.regs with
        out0 := 0, out1 := 0, out2 := 0, status := flags ||| (if 0 < M then 0x20#32 else 0) } }
    else ∃ e : ℤ, 2 ^ (e - 1) ≤ M ∧ M < 2 ^ e ∧ -106 ≤ e ∧ e ≤ 128 ∧
      let colour := fun c : ℚ => min ⌊c * 2 ^ (8 - min e 127)⌋₊ 255
      exec .encRgbe s = .next { s with regs := { s.regs with
        out0 := pack (byte (colour R)) (byte (colour G)) (byte (colour B)) (byte (min e 127 + 128).toNat)
        out1 := 0
        out2 := 0
        status := flags ||| (if 2 ^ 127 ≤ M then 0x08#32 else 0) } }

/-- R85 with `QD_MODE = ROUND_HA` (the alternative of R6; log entry 7): the same two encodes with rounded bytes. ENC.RGBD still never
saturates. -/
def Obligations.RoundedModeRoundsTheSameBytes : Prop :=
  ∀ x0 x1 x2 : Word,
    let R := (san x0).value
    let G := (san x1).value
    let B := (san x2).value
    let M := max 1 (max R (max G B))
    let colour := fun c : ℚ => ⌊255 * c / M + 1 / 2⌋₊
    let r := encRgbd .roundHalfAway x0 x1 x2
    (colour R ≤ 255 ∧ colour G ≤ 255 ∧ colour B ≤ 255 ∧ ⌊255 / M + 1 / 2⌋₊ ≤ 255) ∧
    r.o0 = pack (byte (colour R)) (byte (colour G)) (byte (colour B)) (byte ⌊255 / M + 1 / 2⌋₊) ∧
    Flag.sat ∉ r.flags ∧
    ∀ range : Word, legalRange range = true →
      let Dq := min ⌊max (val range / M) 1⌋₊ 255
      let level := fun c : ℚ => min ⌊255 * c * Dq / val range + 1 / 2⌋₊ 255
      (encRgbd2 .roundHalfAway x0 x1 x2 range).o0 =
        pack (byte (level R)) (byte (level G)) (byte (level B)) (byte Dq)

/-- R120: DEC.RGBM writes `b_k * b3 * rho / 65025`, each rounded once to the nearest binary32, and sets no flag. -/
def Obligations.DecRgbmResult : Prop :=
  encode .decRgbm = 0x00000002#32 ∧ ∀ s : State, RangeIsLegal s →
    let b := fun k => (byteOf s.regs.in0 k : ℚ)
    let rho := val s.regs.range
    ∃ y0 y1 y2 : Word,
      exec .decRgbm s = .next { s with regs := { s.regs with out0 := y0, out1 := y1, out2 := y2 } } ∧
      IsRne32 (b 0 * b 3 * rho / 65025) y0 ∧ IsRne32 (b 1 * b 3 * rho / 65025) y1 ∧
      IsRne32 (b 2 * b 3 * rho / 65025) y2 ∧
      (s.regs.in0 = 0xFFFFFFFF#32 → y0 = s.regs.range ∧ y1 = s.regs.range ∧ y2 = s.regs.range)

/-- R121: DEC.RGBD writes `b_k / b3`, each rounded once, and sets no flag; for `b3 = 0` three `+0` and ZDIV. -/
def Obligations.DecRgbdResult : Prop :=
  encode .decRgbd = 0x00000012#32 ∧ ∀ s : State,
    let b := fun k => (byteOf s.regs.in0 k : ℚ)
    if byteOf s.regs.in0 3 = 0 then
      exec .decRgbd s = .next { s with regs := { s.regs with
        out0 := 0, out1 := 0, out2 := 0, status := s.regs.status ||| 0x10#32 } }
    else ∃ y0 y1 y2 : Word,
      exec .decRgbd s = .next { s with regs := { s.regs with out0 := y0, out1 := y1, out2 := y2 } } ∧
      IsRne32 (b 0 / b 3) y0 ∧ IsRne32 (b 1 / b 3) y1 ∧ IsRne32 (b 2 / b 3) y2

/-- R122: DEC.RGBD2 writes `b_k * rho / (255 * b3)`, each rounded once, and sets no flag; for `b3 = 0` three `+0` and
ZDIV. The result never exceeds `rho`. -/
def Obligations.DecRgbd2Result : Prop :=
  encode .decRgbd2 = 0x00000022#32 ∧ ∀ s : State, RangeIsLegal s →
    let b := fun k => (byteOf s.regs.in0 k : ℚ)
    let rho := val s.regs.range
    if byteOf s.regs.in0 3 = 0 then
      exec .decRgbd2 s = .next { s with regs := { s.regs with
        out0 := 0, out1 := 0, out2 := 0, status := s.regs.status ||| 0x10#32 } }
    else ∃ y0 y1 y2 : Word,
      exec .decRgbd2 s = .next { s with regs := { s.regs with out0 := y0, out1 := y1, out2 := y2 } } ∧
      IsRne32 (b 0 * rho / (255 * b 3)) y0 ∧ IsRne32 (b 1 * rho / (255 * b 3)) y1 ∧
      IsRne32 (b 2 * rho / (255 * b 3)) y2 ∧ val y0 ≤ rho ∧ val y1 ≤ rho ∧ val y2 ≤ rho

/-- R123: DEC.RGBE writes `b_k * 2^(b3 - 136)` exactly (no rounding ever happens), exponent byte 0 included, and sets no
flag. -/
def Obligations.DecRgbeResult : Prop :=
  encode .decRgbe = 0x00000032#32 ∧ ∀ s : State,
    let f : ℚ := 2 ^ ((byteOf s.regs.in0 3 : ℤ) - 136)
    ∃ y0 y1 y2 : Word,
      exec .decRgbe s = .next { s with regs := { s.regs with out0 := y0, out1 := y1, out2 := y2 } } ∧
      isFiniteNonneg y0 = true ∧ val y0 = byteOf s.regs.in0 0 * f ∧
      isFiniteNonneg y1 = true ∧ val y1 = byteOf s.regs.in0 1 * f ∧
      isFiniteNonneg y2 = true ∧ val y2 = byteOf s.regs.in0 2 * f

/-- R104: equal input words (the host's greyscale promotion) give equal colour bytes, whichever the variant. -/
def Obligations.GreyPixelsEncodeToEqualBytes : Prop :=
  ∀ (i : Instr) (s : State), i ∈ [Instr.encRgbm, Instr.encRgbd, Instr.encRgbd2, Instr.encRgbe] →
    s.regs.in1 = s.regs.in0 → s.regs.in2 = s.regs.in0 →
    ∃ t, exec i s = .next t ∧ byteOf t.regs.out0 1 = byteOf t.regs.out0 0 ∧
      byteOf t.regs.out0 2 = byteOf t.regs.out0 0

/-- R103 (monotonicity): scaling every channel by `2^k` moves only the exponent byte, by `k`, while the largest channel
stays in `[10^-32, 2^127)`. -/
def Obligations.RgbeScalingMovesOnlyTheExponent : Prop :=
  ∀ (s s' : State) (k : ℤ),
    let V := fun (u : State) => [(san u.regs.in0).value, (san u.regs.in1).value, (san u.regs.in2).value]
    let M := fun (u : State) =>
      max (san u.regs.in0).value (max (san u.regs.in1).value (san u.regs.in2).value)
    V s' = (V s).map (fun x => x * 2 ^ k) →
    1 / 10 ^ 32 ≤ M s → M s < 2 ^ 127 → 1 / 10 ^ 32 ≤ M s' → M s' < 2 ^ 127 →
    ∃ t t', exec .encRgbe s = .next t ∧ exec .encRgbe s' = .next t' ∧
      byteOf t'.regs.out0 0 = byteOf t.regs.out0 0 ∧ byteOf t'.regs.out0 1 = byteOf t.regs.out0 1 ∧
      byteOf t'.regs.out0 2 = byteOf t.regs.out0 2 ∧
      (byteOf t'.regs.out0 3 : ℤ) = byteOf t.regs.out0 3 + k

/-! ### Round trips: encode, feed OUT0 to IN0, decode -/

/-- R125 for RGBM: with every channel at most `rho`, the decoded channel before rounding is within
`A * rho / 130050 ≤ rho / 510` of the sanitised one (`A` is the shared byte), and the register holds it rounded once. -/
def Obligations.RgbmRoundTripIsWithinAStep : Prop :=
  ∀ s : State, RangeIsLegal s →
    let rho := val s.regs.range
    (∀ x ∈ [s.regs.in0, s.regs.in1, s.regs.in2], (san x).value ≤ rho) →
    ∃ t u, exec .encRgbm s = .next t ∧
      exec .decRgbm { t with regs := { t.regs with in0 := t.regs.out0 } } = .next u ∧
      let b := fun k => (byteOf t.regs.out0 k : ℚ)
      let dec := fun k => b k * b 3 * rho / 65025
      b 3 * rho / 130050 ≤ rho / 510 ∧
      (IsRne32 (dec 0) u.regs.out0 ∧ |dec 0 - (san s.regs.in0).value| ≤ b 3 * rho / 130050) ∧
      (IsRne32 (dec 1) u.regs.out1 ∧ |dec 1 - (san s.regs.in1).value| ≤ b 3 * rho / 130050) ∧
      (IsRne32 (dec 2) u.regs.out2 ∧ |dec 2 - (san s.regs.in2).value| ≤ b 3 * rho / 130050)

/-- R125 for RGBD2 with `QD_MODE = TRUNC`: with every channel at most `rho`, the decoded channel before rounding lies
below the sanitised one by less than `rho / (255 * Dq) ≤ rho / 255` (`Dq` is the shared byte, never 0). -/
def Obligations.Rgbd2RoundTripIsWithinAStep : Prop :=
  ∀ s : State, RangeIsLegal s →
    let rho := val s.regs.range
    (∀ x ∈ [s.regs.in0, s.regs.in1, s.regs.in2], (san x).value ≤ rho) →
    ∃ t u, exec .encRgbd2 s = .next t ∧
      exec .decRgbd2 { t with regs := { t.regs with in0 := t.regs.out0 } } = .next u ∧
      let b := fun k => (byteOf t.regs.out0 k : ℚ)
      let dec := fun k => b k * rho / (255 * b 3)
      let near := fun (k : Nat) (x : Word) =>
        0 ≤ (san x).value - dec k ∧ (san x).value - dec k < rho / (255 * b 3)
      1 ≤ b 3 ∧ rho / (255 * b 3) ≤ rho / 255 ∧
      (IsRne32 (dec 0) u.regs.out0 ∧ near 0 s.regs.in0) ∧
      (IsRne32 (dec 1) u.regs.out1 ∧ near 1 s.regs.in1) ∧
      (IsRne32 (dec 2) u.regs.out2 ∧ near 2 s.regs.in2)

/-- R125 for RGBE: with the largest channel in `[10^-32, 2^127)` and `2^(e-1) ≤ M < 2^e`, each decoded channel lies
below the sanitised one by less than `2^(e-8)`; below `10^-32` every channel decodes to `+0`. -/
def Obligations.RgbeRoundTripIsWithinAStep : Prop :=
  ∀ s : State,
    let M := max (san s.regs.in0).value (max (san s.regs.in1).value (san s.regs.in2).value)
    M < 2 ^ 127 →
    ∃ t u, exec .encRgbe s = .next t ∧
      exec .decRgbe { t with regs := { t.regs with in0 := t.regs.out0 } } = .next u ∧
      if M < 1 / 10 ^ 32 then u.regs.out0 = 0 ∧ u.regs.out1 = 0 ∧ u.regs.out2 = 0
      else ∃ e : ℤ, 2 ^ (e - 1) ≤ M ∧ M < 2 ^ e ∧
        (0 ≤ (san s.regs.in0).value - val u.regs.out0 ∧ (san s.regs.in0).value - val u.regs.out0 < 2 ^ (e - 8)) ∧
        (0 ≤ (san s.regs.in1).value - val u.regs.out1 ∧ (san s.regs.in1).value - val u.regs.out1 < 2 ^ (e - 8)) ∧
        (0 ≤ (san s.regs.in2).value - val u.regs.out2 ∧ (san s.regs.in2).value - val u.regs.out2 < 2 ^ (e - 8))

/-! ### The host's assembly -/

/-- R67: the pseudo-instructions, each the transactions of its expansion in order, over word operands. The
form of a line is the model's (log entry 18). -/
def Obligations.PseudoInstructionsExpand : Prop :=
  ∀ (v : Variant) (r g b : Word),
    (HostLine.encpx v (.hex r) (.hex g) (.hex b)).expand =
      some [busWrite 0x10 r, busWrite 0x14 g, busWrite 0x18 b, busWrite 0x0C (encode (Instr.encodeOf v))] ∧
    (HostLine.decpx v (.hex r)).expand = some [busWrite 0x10 r, busWrite 0x0C (encode (Instr.decodeOf v))] ∧
    (HostLine.setrange (.hex r)).expand = some [busWrite 0x04 r] ∧
    HostLine.clrst.expand = some [busWrite 0x08 0x000000FF#32] ∧
    HostLine.getpx.expand = some [busRead 0x1C, busRead 0x20, busRead 0x24]

/-- R66: every command's mnemonic is printed for its word and read back, and a reserved word prints as `.word`. -/
def Obligations.MnemonicsNameTheirCommands : Prop :=
  (∀ i : Instr, disassemble (encode i) = mnemonicOf i ∧ parseMnemonic (mnemonicOf i) = some i) ∧
    ∀ (w : Word) (e : ReservedWord), decodeCmd w = .error e → disassemble w = ".word " ++ hexWord w
end

