-- ==== Sys2Proof/Laws/Decode.lean ====
section
/-! SUPPORT. Lemmas on the fields of a command word (30_encoding.md R60). -/

namespace Sys2Proof

/-- The reserved field is 0 exactly for the 64 words below `0x40`. -/
theorem cmdFields_rsv_eq_zero (w : Word) : (cmdFields w).rsv = 0 ↔ w.toNat < 64 := by
  have hw := w.isLt
  rw [← BitVec.toNat_inj]
  have h0 : (0 : BitVec 26).toNat = 0 := rfl
  simp only [cmdFields, BitVec.extractLsb'_toNat, Nat.shiftRight_eq_div_pow, h0]
  omega

/-- A word at or above `0x40` is reserved for its reserved field (R63, R64). -/
theorem decodeCmd_of_ge {w : Word} (h : 64 ≤ w.toNat) : decodeCmd w = .error .rsvSet := by
  have : (cmdFields w).rsv ≠ 0 := fun e => by
    have := (cmdFields_rsv_eq_zero w).mp e
    omega
  unfold decodeCmd decodeFields
  rw [if_pos this]

end Sys2Proof
end

