-- ==== Sys2Proof/Laws/Flags.lean ====
section
/-! SUPPORT. What setting and clearing STATUS bits does, bit by bit (10_state.md R24, 43_host_access.md R143). -/

namespace Sys2Proof.Machine

/-- A flag's mask has that flag's bit and no other. -/
@[simp] theorem mask_getLsbD (f : Flag) (i : Nat) : f.mask.getLsbD i = decide (i = f.bit) := by
  have h : f.bit < 32 := by cases f <;> decide
  simp only [Flag.mask, BitVec.getLsbD_twoPow, h, decide_true, Bool.true_and]
  exact decide_eq_decide.mpr eq_comm

@[simp] theorem setFlags_nil (st : Word) : setFlags st [] = st := rfl

@[simp] theorem setFlags_cons (st : Word) (f : Flag) (F : List Flag) :
    setFlags st (f :: F) = setFlags (st ||| f.mask) F := rfl

@[simp] theorem setFlags_append (st : Word) (F G : List Flag) :
    setFlags st (F ++ G) = setFlags (setFlags st F) G := by
  simp [setFlags, List.foldl_append]

/-- A STATUS bit after a commit: it was set, or a flag of the set has its number; no bit is cleared (R81). -/
theorem setFlags_getLsbD (st : Word) (F : List Flag) (i : Nat) :
    (setFlags st F).getLsbD i = (st.getLsbD i || F.any fun f => decide (i = f.bit)) := by
  induction F generalizing st with
  | nil => simp
  | cons f F ih => rw [setFlags_cons, ih]; simp [Bool.or_assoc]

/-- Setting flags is an OR with a word that depends on the flags alone (R33, R80). -/
theorem setFlags_eq_or (st : Word) (F : List Flag) : setFlags st F = st ||| setFlags 0 F := by
  apply BitVec.eq_of_getLsbD_eq
  intro i _
  simp [setFlags_getLsbD]

/-- Setting the same flags again changes nothing (R164). -/
theorem setFlags_idem (st : Word) (F : List Flag) : setFlags (setFlags st F) F = setFlags st F := by
  apply BitVec.eq_of_getLsbD_eq
  intro i _
  simp [setFlags_getLsbD]

/-- The low eight bits, as a mask. -/
theorem lowByteMask_getLsbD (i : Nat) : (0x000000FF#32).getLsbD i = decide (i < 8) := by
  rcases Nat.lt_or_ge i 32 with h | h
  · interval_cases i <;> decide
  · rw [BitVec.getLsbD_of_ge _ _ h]
    exact (decide_eq_false (by omega)).symm

/-- A STATUS bit after a write-1-to-clear (R143): a 1 in bits 7:0 clears its bit, every other bit stays. -/
theorem clearFlags_getLsbD (st d : Word) (i : Nat) :
    (clearFlags st d).getLsbD i = (st.getLsbD i && !(decide (i < 8) && d.getLsbD i)) := by
  rcases Nat.lt_or_ge i 32 with h | h
  · simp only [clearFlags, BitVec.getLsbD_and, BitVec.getLsbD_not, lowByteMask_getLsbD, h, decide_true, Bool.true_and]
    cases d.getLsbD i <;> simp
  · rw [BitVec.getLsbD_of_ge _ _ h, BitVec.getLsbD_of_ge _ _ h, Bool.false_and]

/-- STATUS as read: bits 31:8 are 0 (R141). -/
theorem readStatus_getLsbD (st : Word) (i : Nat) :
    (readStatus st).getLsbD i = (st.getLsbD i && decide (i < 8)) := by
  simp only [readStatus, BitVec.getLsbD_and, lowByteMask_getLsbD]

end Sys2Proof.Machine
end

