-- ==== Sys2Proof/Laws/State.lean ====
section
/-! SUPPORT. One lemma per field for each update of the state, true by unfolding, so that no later proof unfolds a record
update. -/

namespace Sys2Proof.Machine

section commit
variable (r : CmdResult) (s : State)
@[simp] theorem commit_range : (commit r s).regs.range = s.regs.range := rfl
@[simp] theorem commit_status : (commit r s).regs.status = setFlags s.regs.status r.flags := rfl
@[simp] theorem commit_in0 : (commit r s).regs.in0 = s.regs.in0 := rfl
@[simp] theorem commit_in1 : (commit r s).regs.in1 = s.regs.in1 := rfl
@[simp] theorem commit_in2 : (commit r s).regs.in2 = s.regs.in2 := rfl
@[simp] theorem commit_out0 : (commit r s).regs.out0 = r.o0 := rfl
@[simp] theorem commit_out1 : (commit r s).regs.out1 = r.o1 := rfl
@[simp] theorem commit_out2 : (commit r s).regs.out2 = r.o2 := rfl
@[simp] theorem commit_window : (commit r s).window = s.window := rfl
@[simp] theorem commit_resetLine : (commit r s).resetLine = s.resetLine := rfl
@[simp] theorem commit_pending : (commit r s).pending = s.pending := rfl
@[simp] theorem commit_replies : (commit r s).replies = s.replies := rfl
end commit

section raiseFlags
variable (F : List Flag) (s : State)
@[simp] theorem raiseFlags_range : (raiseFlags F s).regs.range = s.regs.range := rfl
@[simp] theorem raiseFlags_status : (raiseFlags F s).regs.status = setFlags s.regs.status F := rfl
@[simp] theorem raiseFlags_in0 : (raiseFlags F s).regs.in0 = s.regs.in0 := rfl
@[simp] theorem raiseFlags_in1 : (raiseFlags F s).regs.in1 = s.regs.in1 := rfl
@[simp] theorem raiseFlags_in2 : (raiseFlags F s).regs.in2 = s.regs.in2 := rfl
@[simp] theorem raiseFlags_out0 : (raiseFlags F s).regs.out0 = s.regs.out0 := rfl
@[simp] theorem raiseFlags_out1 : (raiseFlags F s).regs.out1 = s.regs.out1 := rfl
@[simp] theorem raiseFlags_out2 : (raiseFlags F s).regs.out2 = s.regs.out2 := rfl
@[simp] theorem raiseFlags_window : (raiseFlags F s).window = s.window := rfl
@[simp] theorem raiseFlags_resetLine : (raiseFlags F s).resetLine = s.resetLine := rfl
@[simp] theorem raiseFlags_pending : (raiseFlags F s).pending = s.pending := rfl
@[simp] theorem raiseFlags_replies : (raiseFlags F s).replies = s.replies := rfl
end raiseFlags

section writeStatus
variable (d : Word) (s : State)
@[simp] theorem writeStatus_range : (writeStatus d s).regs.range = s.regs.range := rfl
@[simp] theorem writeStatus_status : (writeStatus d s).regs.status = clearFlags s.regs.status d := rfl
@[simp] theorem writeStatus_in0 : (writeStatus d s).regs.in0 = s.regs.in0 := rfl
@[simp] theorem writeStatus_in1 : (writeStatus d s).regs.in1 = s.regs.in1 := rfl
@[simp] theorem writeStatus_in2 : (writeStatus d s).regs.in2 = s.regs.in2 := rfl
@[simp] theorem writeStatus_out0 : (writeStatus d s).regs.out0 = s.regs.out0 := rfl
@[simp] theorem writeStatus_out1 : (writeStatus d s).regs.out1 = s.regs.out1 := rfl
@[simp] theorem writeStatus_out2 : (writeStatus d s).regs.out2 = s.regs.out2 := rfl
@[simp] theorem writeStatus_window : (writeStatus d s).window = s.window := rfl
@[simp] theorem writeStatus_resetLine : (writeStatus d s).resetLine = s.resetLine := rfl
@[simp] theorem writeStatus_pending : (writeStatus d s).pending = s.pending := rfl
@[simp] theorem writeStatus_replies : (writeStatus d s).replies = s.replies := rfl
end writeStatus

section port
variable (a : Reply) (s : State)
@[simp] theorem answer_regs : (answer a s).regs = s.regs := rfl
@[simp] theorem answer_window : (answer a s).window = s.window := rfl
@[simp] theorem answer_resetLine : (answer a s).resetLine = s.resetLine := rfl
@[simp] theorem answer_pending : (answer a s).pending = s.pending := rfl
@[simp] theorem answer_replies : (answer a s).replies = s.replies ++ [a] := rfl
@[simp] theorem assertReset_regs : (assertReset s).regs = Regs.reset := rfl
@[simp] theorem assertReset_window : (assertReset s).window = s.window := rfl
@[simp] theorem assertReset_resetLine : (assertReset s).resetLine = true := rfl
@[simp] theorem assertReset_pending : (assertReset s).pending = s.pending := rfl
@[simp] theorem assertReset_replies : (assertReset s).replies = s.replies := rfl
@[simp] theorem releaseReset_regs : (releaseReset s).regs = s.regs := rfl
@[simp] theorem releaseReset_window : (releaseReset s).window = s.window := rfl
@[simp] theorem releaseReset_resetLine : (releaseReset s).resetLine = false := rfl
@[simp] theorem releaseReset_pending : (releaseReset s).pending = s.pending := rfl
@[simp] theorem releaseReset_replies : (releaseReset s).replies = s.replies := rfl
end port

section reset
@[simp] theorem reset_range : Regs.reset.range = 0x41000000#32 := rfl
@[simp] theorem reset_status : Regs.reset.status = 0 := rfl
@[simp] theorem reset_in0 : Regs.reset.in0 = 0 := rfl
@[simp] theorem reset_in1 : Regs.reset.in1 = 0 := rfl
@[simp] theorem reset_in2 : Regs.reset.in2 = 0 := rfl
@[simp] theorem reset_out0 : Regs.reset.out0 = 0 := rfl
@[simp] theorem reset_out1 : Regs.reset.out1 = 0 := rfl
@[simp] theorem reset_out2 : Regs.reset.out2 = 0 := rfl
@[simp] theorem state_reset_regs : State.reset.regs = Regs.reset := rfl
@[simp] theorem state_reset_window : State.reset.window = 0 := rfl
@[simp] theorem state_reset_resetLine : State.reset.resetLine = false := rfl
@[simp] theorem state_reset_pending : State.reset.pending = [] := rfl
@[simp] theorem state_reset_replies : State.reset.replies = [] := rfl
end reset

section results
variable (b0 b1 b2 b3 : Byte) (r g b : ℚ) (F : List Flag)
@[simp] theorem encodeResult_o0 : (encodeResult b0 b1 b2 b3 F).o0 = pack b0 b1 b2 b3 := rfl
@[simp] theorem encodeResult_o1 : (encodeResult b0 b1 b2 b3 F).o1 = 0x00000000#32 := rfl
@[simp] theorem encodeResult_o2 : (encodeResult b0 b1 b2 b3 F).o2 = 0x00000000#32 := rfl
@[simp] theorem encodeResult_flags : (encodeResult b0 b1 b2 b3 F).flags = F := rfl
@[simp] theorem decodeResult_o0 : (decodeResult r g b F).o0 = rne32 r := rfl
@[simp] theorem decodeResult_o1 : (decodeResult r g b F).o1 = rne32 g := rfl
@[simp] theorem decodeResult_o2 : (decodeResult r g b F).o2 = rne32 b := rfl
@[simp] theorem decodeResult_flags : (decodeResult r g b F).flags = F := rfl
end results

end Sys2Proof.Machine
end

