-- ==== Sys2Proof/Laws/Exec.lean ====
section
/-! SUPPORT. What one command can do, said once: NOP keeps the state, every other command commits a result that depends
on its operands alone (40_datapath_units.md R80, R81). -/

namespace Sys2Proof.Machine

/-- The result a command commits, from the registers it may read (R65); none for NOP. -/
def commandResult (i : Instr) (r : Regs) : Option CmdResult :=
  match i with
  | .nop => none
  | .encRgbm => some (encRgbm r.in0 r.in1 r.in2 r.range)
  | .encRgbd => some (encRgbd Config.qdMode r.in0 r.in1 r.in2)
  | .encRgbd2 => some (encRgbd2 Config.qdMode r.in0 r.in1 r.in2 r.range)
  | .encRgbe => some (encRgbe r.in0 r.in1 r.in2)
  | .decRgbm => some (decRgbm r.in0 r.range)
  | .decRgbd => some (decRgbd r.in0)
  | .decRgbd2 => some (decRgbd2 r.in0 r.range)
  | .decRgbe => some (decRgbe r.in0)

@[simp] theorem exec_nop (s : State) : exec .nop s = .next s := rfl

@[simp] theorem exec_encRgbm (s : State) :
    exec .encRgbm s = .next (commit (encRgbm s.regs.in0 s.regs.in1 s.regs.in2 s.regs.range) s) := rfl

@[simp] theorem exec_encRgbd (s : State) :
    exec .encRgbd s = .next (commit (encRgbd .trunc s.regs.in0 s.regs.in1 s.regs.in2) s) := rfl

@[simp] theorem exec_encRgbd2 (s : State) :
    exec .encRgbd2 s = .next (commit (encRgbd2 .trunc s.regs.in0 s.regs.in1 s.regs.in2 s.regs.range) s) := rfl

@[simp] theorem exec_encRgbe (s : State) :
    exec .encRgbe s = .next (commit (encRgbe s.regs.in0 s.regs.in1 s.regs.in2) s) := rfl

@[simp] theorem exec_decRgbm (s : State) :
    exec .decRgbm s = .next (commit (decRgbm s.regs.in0 s.regs.range) s) := rfl

@[simp] theorem exec_decRgbd (s : State) : exec .decRgbd s = .next (commit (decRgbd s.regs.in0) s) := rfl

@[simp] theorem exec_decRgbd2 (s : State) :
    exec .decRgbd2 s = .next (commit (decRgbd2 s.regs.in0 s.regs.range) s) := rfl

@[simp] theorem exec_decRgbe (s : State) : exec .decRgbe s = .next (commit (decRgbe s.regs.in0) s) := rfl

/-- Everything a command can do. -/
theorem exec_cases (i : Instr) (s : State) :
    (i = .nop ∧ exec i s = .next s) ∨
      ∃ r, commandResult i s.regs = some r ∧ exec i s = .next (commit r s) := by
  cases i
  case nop => exact .inl ⟨rfl, rfl⟩
  all_goals exact .inr ⟨_, rfl, rfl⟩

/-- The zero-divisor result (R121, R122). -/
theorem zeroDivisorResult_eq :
    zeroDivisorResult = { o0 := 0, o1 := 0, o2 := 0, flags := [.zdiv] } := rfl

end Sys2Proof.Machine
end

