-- ==== Sys2Proof/Laws/Instances.lean ====
section
/-! SUPPORT. The windows of a platform's blocks, and what a step of one block and a host's access by address do to the
list of blocks (60_exceptions.md R171, 20_memory.md R40, R53). -/

namespace Sys2Proof.Machine

/-- A later window starts at or after the end of an earlier one (log entry 22). -/
theorem base_add_le {j k : Nat} (h : j < k) : Config.base j + 64 ≤ Config.base k := by
  induction k with
  | zero => omega
  | succ k ih =>
    have hk : Config.base (k + 1) = 64 * (Config.baseBlock k + 1 + Config.blocksBetween k) := rfl
    rcases Nat.lt_succ_iff_lt_or_eq.mp h with h | rfl
    · have := ih h
      unfold Config.base at *
      omega
    · unfold Config.base at *
      omega

/-- An address has an offset in a window exactly when it lies in it (R40, R53). -/
theorem windowOffset_eq_some (k addr : Nat) (off : BitVec 6) :
    windowOffset k addr = some off ↔
      (Config.base k ≤ addr ∧ addr < Config.base k + 64) ∧ off = BitVec.ofNat 6 (addr - Config.base k) := by
  unfold windowOffset
  split
  · rename_i h
    simp only [Option.some.injEq, h, true_and]
    exact eq_comm
  · rename_i h
    simp [h]

/-- What an access by address does to each block: the block whose window holds it gets the event, the others nothing. -/
theorem hostAccess_getElem? (addr : Nat) (a : Access) (p : List State) (k : Nat) :
    (hostAccess addr a p)[k]? = p[k]?.map fun s =>
      match windowOffset s.window addr with
      | some _ => { s with pending := s.pending ++ [.atAddress addr a] }
      | none => s :=
  List.getElem?_map

/-- What a step of one block does when it completes: that block's own step, or nothing where there is no such block. -/
theorem stepInstance_cases {k : Nat} {p q : List State} (h : stepInstance k p = .next q) :
    (p[k]? = none ∧ q = p) ∨ ∃ s t, p[k]? = some s ∧ step s = .next t ∧ q = p.set k t := by
  unfold stepInstance at h
  cases hk : p[k]? with
  | none =>
    rw [hk] at h
    cases h
    exact .inl ⟨rfl, rfl⟩
  | some s =>
    rw [hk] at h
    cases hs : step s with
    | next t =>
      simp only [hs] at h
      cases h
      exact .inr ⟨s, t, rfl, hs, rfl⟩
    | fault r => exact nomatch r
    | refused r =>
      simp only [hs] at h
      cases h

end Sys2Proof.Machine
end

