-- ==== Sys2Proof/Laws/Patterns.lean ====
section
/-! SUPPORT. The classes of a binary32 pattern as ranges of its number (00_scope.md R10, 10_state.md R23). -/

namespace Sys2Proof.Machine

theorem signBit_iff (x : Word) : signBit x = true ↔ 2 ^ 31 ≤ x.toNat := by
  simp [signBit, BitVec.msb_eq_decide]

theorem isNaN_iff (x : Word) : isNaN x = true ↔ 0x7F800000 < x.toNat % 2 ^ 31 := by
  have hx := x.isLt
  simp only [isNaN, expField, fracField, BitVec.extractLsb'_toNat, Nat.shiftRight_eq_div_pow, Bool.and_eq_true,
    beq_iff_eq, bne_iff_ne, ne_eq]
  omega

theorem isInf_iff (x : Word) : isInf x = true ↔ x.toNat % 2 ^ 31 = 0x7F800000 := by
  have hx := x.isLt
  simp only [isInf, expField, fracField, BitVec.extractLsb'_toNat, Nat.shiftRight_eq_div_pow, Bool.and_eq_true,
    beq_iff_eq]
  omega

theorem isFiniteNonneg_iff (x : Word) : isFiniteNonneg x = true ↔ x.toNat < 0x7F800000 := by
  have hx := x.isLt
  simp only [isFiniteNonneg, isFinite, Bool.and_eq_true, Bool.not_eq_true', Bool.eq_false_iff, ne_eq, signBit_iff,
    bne_iff_ne, expField, BitVec.extractLsb'_toNat, Nat.shiftRight_eq_div_pow]
  omega

/-- The legal RANGE patterns are `0x00000001` to `0x7F7FFFFF` (R23). -/
theorem legalRange_iff (d : Word) : legalRange d = true ↔ 1 ≤ d.toNat ∧ d.toNat ≤ 0x7F7FFFFF := by
  have hd := d.isLt
  have hz : d = 0x00000000#32 ↔ d.toNat = 0 := by rw [← BitVec.toNat_inj]; simp
  simp only [legalRange, Bool.and_eq_true, Bool.not_eq_true', Bool.eq_false_iff, ne_eq, signBit_iff, bne_iff_ne, hz,
    expField, BitVec.extractLsb'_toNat, Nat.shiftRight_eq_div_pow]
  omega

end Sys2Proof.Machine
end

