-- ==== Sys2Proof/Laws/PerInstr.lean ====
section
/-! SUPPORT. The family `EncodingAgrees`: what the encoding tables say of each command (30_encoding.md R60 to R63), one
lemma per constructor. -/

namespace Sys2Proof.Laws

/-- The command is well-formed, its word's fields are a command's, and the decoder reads it back. -/
def EncodingAgrees.Statement (i : Instr) : Prop :=
  i.wf = true ∧ (cmdFields (encode i)).wf = true ∧ decodeCmd (encode i) = .ok i

theorem EncodingAgrees.nop : EncodingAgrees.Statement .nop := ⟨rfl, rfl, rfl⟩
theorem EncodingAgrees.encRgbm : EncodingAgrees.Statement .encRgbm := ⟨rfl, rfl, rfl⟩
theorem EncodingAgrees.encRgbd : EncodingAgrees.Statement .encRgbd := ⟨rfl, rfl, rfl⟩
theorem EncodingAgrees.encRgbd2 : EncodingAgrees.Statement .encRgbd2 := ⟨rfl, rfl, rfl⟩
theorem EncodingAgrees.encRgbe : EncodingAgrees.Statement .encRgbe := ⟨rfl, rfl, rfl⟩
theorem EncodingAgrees.decRgbm : EncodingAgrees.Statement .decRgbm := ⟨rfl, rfl, rfl⟩
theorem EncodingAgrees.decRgbd : EncodingAgrees.Statement .decRgbd := ⟨rfl, rfl, rfl⟩
theorem EncodingAgrees.decRgbd2 : EncodingAgrees.Statement .decRgbd2 := ⟨rfl, rfl, rfl⟩
theorem EncodingAgrees.decRgbe : EncodingAgrees.Statement .decRgbe := ⟨rfl, rfl, rfl⟩

end Sys2Proof.Laws
end

