-- ==== Sys2Proof/Laws/Step.lean ====
section
/-! SUPPORT. What one transaction and one step can do, said once (43_host_access.md R140). -/

namespace Sys2Proof.Machine

/-- A RANGE write stores a legal pattern or sets RANGE_ERR, never both (R142, R164). -/
theorem writeRange_cases (d : Word) (s : State) :
    (legalRange d = true ∧ writeRange d s = { s with regs := { s.regs with range := d } }) ∨
      (legalRange d = false ∧ writeRange d s = raiseFlags [.rangeErr] s) := by
  unfold writeRange
  cases h : legalRange d <;> simp

/-- A CMD write runs the decoded command or sets CMD_ERR (R144, R145). -/
theorem writeCmd_cases (d : Word) (s : State) :
    (∃ i, decodeCmd d = .ok i ∧ writeCmd d s = exec i s) ∨
      (∃ e, decodeCmd d = .error e ∧ writeCmd d s = .next (rejectCommand s)) := by
  unfold writeCmd
  cases h : decodeCmd d with
  | ok i => exact .inl ⟨i, rfl, rfl⟩
  | error e => exact .inr ⟨e, rfl, rfl⟩

/-- A command write of a command's word is that command (R144). -/
theorem writeCmd_ok {d : Word} {i : Instr} (h : decodeCmd d = .ok i) (s : State) : writeCmd d s = exec i s := by
  unfold writeCmd; rw [h]

/-- A reserved word runs nothing (R145). -/
theorem writeCmd_error {d : Word} {e : ReservedWord} (h : decodeCmd d = .error e) (s : State) :
    writeCmd d s = .next (rejectCommand s) := by
  unfold writeCmd; rw [h]

/-- A transaction the admission check turns away (R162). -/
theorem transact_busError {off : BitVec 6} {a : Access} (h : admitted off a = false) (s : State) :
    transact off a s = .next (answer .busError s) := by
  simp [transact, h]

/-- An admitted read (R141). -/
theorem transact_read {off : BitVec 6} {n : Nat} (h : admitted off (.read n) = true) (s : State) :
    transact off (.read n) s = .next (answer (.data (readReg s.regs off)) s) := by
  simp [transact, h]

/-- An admitted write (R140). -/
theorem transact_write {off : BitVec 6} {n : Nat} {d : Word} {be : BitVec 4} (h : admitted off (.write n d be) = true)
    (s : State) : transact off (.write n d be) s = writeReg off d (answer .written s) := by
  simp [transact, h]

/-- Everything an admitted write can do (R140, R148). -/
theorem writeReg_cases (off : BitVec 6) (d : Word) (s : State) :
    (regAt off = some .range ∧ writeReg off d s = .next (writeRange d s)) ∨
      (regAt off = some .status ∧ writeReg off d s = .next (writeStatus d s)) ∨
      (regAt off = some .cmd ∧ writeReg off d s = writeCmd d s) ∨
      (regAt off = some .in0 ∧ writeReg off d s = .next { s with regs := { s.regs with in0 := d } }) ∨
      (regAt off = some .in1 ∧ writeReg off d s = .next { s with regs := { s.regs with in1 := d } }) ∨
      (regAt off = some .in2 ∧ writeReg off d s = .next { s with regs := { s.regs with in2 := d } }) ∨
      writeReg off d s = .next s := by
  unfold writeReg
  cases h : regAt off with
  | none => simp
  | some r => cases r <;> simp

/-- The register map, read both ways: an offset holds a register exactly when it is that register's (R40). -/
theorem regAt_eq_some (off : BitVec 6) (r : RegName) : regAt off = some r ↔ off = r.offset := by
  revert off r
  have h : ∀ off : BitVec 6, regAt off =
      if off = 0x00 then some .id else if off = 0x04 then some .range else if off = 0x08 then some .status
      else if off = 0x0C then some .cmd else if off = 0x10 then some .in0 else if off = 0x14 then some .in1
      else if off = 0x18 then some .in2 else if off = 0x1C then some .out0 else if off = 0x20 then some .out1
      else if off = 0x24 then some .out2 else none := by decide
  intro off r
  rw [h]
  constructor
  · intro e
    repeat' split at e
    all_goals first
      | (cases e; assumption)
      | cases e
  · rintro rfl
    cases r <;> rfl

/-- A step with nothing pending changes nothing (R21). -/
theorem step_idle {s : State} (h : s.pending = []) : step s = .next s := by
  simp [step, takeNext, h]

/-- A step takes the next event (R47). -/
theorem step_cons {s : State} {e : PortEvent} {rest : List PortEvent} (h : s.pending = e :: rest) :
    step s = handle e { s with pending := rest } := by
  simp [step, takeNext, h]

/-- Everything an event can do at the port. -/
theorem handle_cases (e : PortEvent) (s : State) :
    (∃ off a, s.resetLine = false ∧
        (e = .transaction off a ∨ ∃ addr, e = .atAddress addr a ∧ windowOffset s.window addr = some off) ∧
        handle e s = transact off a s) ∨
      (((s.resetLine = true ∧ ((∃ off a, e = .transaction off a) ∨ ∃ addr a, e = .atAddress addr a)) ∨
          ∃ addr a, e = .atAddress addr a ∧ windowOffset s.window addr = none) ∧
        handle e s = .next (answer .unanswered s)) ∨
      ((e = .resetInput true ∨ e = .powerUp) ∧ handle e s = .next (assertReset s)) ∨
      (e = .resetInput false ∧ handle e s = .next (releaseReset s)) := by
  cases e with
  | transaction off a =>
    cases h : s.resetLine
    · exact .inl ⟨off, a, rfl, .inl rfl, by simp [handle, arrive, h]⟩
    · exact .inr (.inl ⟨.inl ⟨rfl, .inl ⟨off, a, rfl⟩⟩, by simp [handle, arrive, h]⟩)
  | atAddress addr a =>
    cases hw : windowOffset s.window addr with
    | none => exact .inr (.inl ⟨.inr ⟨addr, a, rfl, hw⟩, by simp [handle, hw]⟩)
    | some off =>
      cases h : s.resetLine
      · exact .inl ⟨off, a, rfl, .inr ⟨addr, rfl, hw⟩, by simp [handle, hw, arrive, h]⟩
      · exact .inr (.inl ⟨.inl ⟨rfl, .inr ⟨addr, a, rfl⟩⟩, by simp [handle, hw, arrive, h]⟩)
  | resetInput b =>
    cases b
    · exact .inr (.inr (.inr ⟨rfl, rfl⟩))
    · exact .inr (.inr (.inl ⟨.inl rfl, rfl⟩))
  | powerUp => exact .inr (.inr (.inl ⟨.inr rfl, rfl⟩))

end Sys2Proof.Machine
end

