-- ==== Sys2Proof/Laws/Safety.lean ====
section
/-! SUPPORT. A step whose next event is a transaction that will be taken (20_memory.md R40, 43_host_access.md R140). -/

namespace Sys2Proof.Machine

/-- However the transaction arrives, the step is that transaction. -/
theorem step_nextTransaction {s : State} {off : BitVec 6} {a : Access} {rest : List PortEvent}
    (h : NextTransaction s off a rest) : step s = transact off a { s with pending := rest } := by
  obtain ⟨hr, hp | ⟨addr, hp, hw⟩⟩ := h
  · rw [step_cons hp]
    simp [handle, arrive, hr]
  · rw [step_cons hp]
    simp [handle, arrive, hr, hw]

/-- A whole aligned write is admitted and takes effect at its register. -/
theorem step_nextWrite {s : State} {off : BitVec 6} {d : Word} {rest : List PortEvent} (h : NextWrite s off d rest)
    (ha : off.toNat % 4 = 0) : step s = writeReg off d (answer .written { s with pending := rest }) := by
  rw [step_nextTransaction h, transact_write (by simp [admitted, ha])]

/-- A CMD write runs `writeCmd` (R144). -/
theorem step_nextCommand {s : State} {w : Word} {rest : List PortEvent} (h : NextWrite s 0x0C w rest) :
    step s = writeCmd w (answer .written { s with pending := rest }) := by
  rw [step_nextWrite h rfl]
  rfl

end Sys2Proof.Machine
end

