-- ==== Sys2Proof/Laws/Units.lean ====
section
/-! SUPPORT. One lemma per datapath unit that says what it gives (40_datapath_units.md R84 to R89, 00_scope.md R10 to
R13). -/

namespace Sys2Proof.Machine

/-- A pattern with sign 0 has a non-negative value (R10). -/
theorem val_nonneg {x : Word} (h : signBit x = false) : 0 ≤ val x := by
  unfold val
  simp only [h, Bool.false_eq_true, if_false]
  split <;> positivity

/-- A legal RANGE has a positive value (R23). -/
theorem val_pos_of_legalRange {x : Word} (h : legalRange x = true) : 0 < val x := by
  unfold legalRange at h
  simp only [Bool.and_eq_true, Bool.not_eq_true', bne_iff_ne, ne_eq] at h
  obtain ⟨⟨hs, _⟩, hz⟩ := h
  unfold val
  simp only [hs, Bool.false_eq_true, if_false]
  split
  · rename_i he
    have hf : fracField x ≠ 0 := by
      intro hf
      apply hz
      apply BitVec.eq_of_toNat_eq
      have h1 : x.toNat < 2 ^ 31 := by
        simpa [signBit, BitVec.msb_eq_false_iff_two_mul_lt] using (by
          have := BitVec.msb_eq_false_iff_two_mul_lt.mp hs
          omega : x.toNat < 2147483648)
      simp only [expField, BitVec.extractLsb'_toNat, Nat.shiftRight_eq_div_pow] at he
      simp only [fracField, BitVec.extractLsb'_toNat, Nat.shiftRight_eq_div_pow] at hf
      simp only [BitVec.toNat_ofNat]
      omega
    have : (0 : ℚ) < fracField x := by exact_mod_cast Nat.pos_of_ne_zero hf
    positivity
  · positivity

/-- The sanitiser never gives a negative value (R84). -/
theorem san_value_nonneg (x : Word) : 0 ≤ (san x).value := by
  unfold san
  split
  · exact le_refl _
  split
  · exact val_nonneg (by decide)
  split
  · split <;> exact le_refl _
  · rename_i h
    exact val_nonneg (by simpa using h)

/-- The saturator's value and flags (R87). -/
theorem sat8_cases (n : Nat) :
    (n ≤ 255 ∧ sat8 n = { value := n, flags := [] }) ∨ (255 < n ∧ sat8 n = { value := 255, flags := [.sat] }) := by
  unfold sat8
  split
  · exact .inr ⟨by omega, rfl⟩
  · exact .inl ⟨by omega, rfl⟩

/-- The saturator's value is the argument clamped to 255 (R87). -/
@[simp] theorem sat8_value (n : Nat) : (sat8 n).value = min n 255 := by
  rcases sat8_cases n with ⟨h, e⟩ | ⟨h, e⟩ <;> rw [e] <;> simp <;> omega

/-- The saturator raises SAT exactly above 255 (R87). -/
@[simp] theorem sat8_flags (n : Nat) : (sat8 n).flags = if 255 < n then [.sat] else [] := by
  rcases sat8_cases n with ⟨h, e⟩ | ⟨h, e⟩ <;> rw [e]
  · rw [if_neg (by omega)]
  · rw [if_pos h]

/-- What `FREXP` promises (R89): the decomposition and the mantissa's range. -/
theorem frexp_spec {M : ℚ} (h : 0 < M) :
    M = (frexp M).m * 2 ^ (frexp M).e ∧ 1 / 2 ≤ (frexp M).m ∧ (frexp M).m < 1 := by
  have hlo : (2 : ℚ) ^ Int.log 2 M ≤ M := by exact_mod_cast Int.zpow_log_le_self (b := 2) (by norm_num) h
  have hhi : M < (2 : ℚ) ^ (Int.log 2 M + 1) := by exact_mod_cast Int.lt_zpow_succ_log_self (b := 2) (by norm_num) M
  have hp : (0 : ℚ) < 2 ^ (Int.log 2 M + 1) := by positivity
  have hs : (2 : ℚ) ^ (Int.log 2 M + 1) = 2 ^ Int.log 2 M * 2 := zpow_add_one₀ (by norm_num) _
  refine ⟨?_, ?_, ?_⟩
  · simp only [frexp]
    field_simp
  · simp only [frexp]
    rw [le_div_iff₀ hp, hs]
    linarith
  · simp only [frexp]
    rw [div_lt_one hp]
    exact hhi

/-- The exponent `FREXP` gives is the only one whose binade holds `M` (R89). -/
theorem frexp_e_eq {M : ℚ} {e : ℤ} (h : 0 < M) (hlo : 2 ^ (e - 1) ≤ M) (hhi : M < 2 ^ e) : (frexp M).e = e := by
  simp only [frexp]
  have h1 : Int.log 2 M < e := by
    rw [Int.lt_zpow_iff_log_lt (b := 2) (by norm_num) h |>.symm]
    exact_mod_cast hhi
  have h2 : e - 1 ≤ Int.log 2 M := by
    rw [Int.zpow_le_iff_le_log (b := 2) (by norm_num) h |>.symm]
    exact_mod_cast hlo
  omega

/-- The scaler (R88): the exponent is clamped at 127, the scale follows it, SAT says that it was clamped. -/
theorem ses_eq (M : ℚ) :
    ses M = { e := min (frexp M).e 127, v := 2 ^ (8 - min (frexp M).e 127),
              flags := if 127 < (frexp M).e then [.sat] else [] } := by
  unfold ses
  by_cases h : (frexp M).e > 127
  · simp only [h, if_true, min_eq_right (le_of_lt h)]
  · simp only [h, if_false, min_eq_left (not_lt.mp h)]

/-- A packed pixel as a number: byte `k` counts `256^k` (R13, R42). -/
theorem pack_toNat (b0 b1 b2 b3 : Byte) :
    (pack b0 b1 b2 b3).toNat = b0.toNat + 256 * b1.toNat + 65536 * b2.toNat + 16777216 * b3.toNat := by
  have h0 := b0.isLt
  have h1 := b1.isLt
  have h2 := b2.isLt
  unfold pack
  simp only [BitVec.toNat_append]
  rw [← Nat.shiftLeft_add_eq_or_of_lt h2, ← Nat.shiftLeft_add_eq_or_of_lt h1, ← Nat.shiftLeft_add_eq_or_of_lt h0]
  simp only [Nat.shiftLeft_eq]
  omega

/-- The bytes of a packed pixel come back (R13, R42). -/
@[simp] theorem unpack_pack (b0 b1 b2 b3 : Byte) :
    unpack (pack b0 b1 b2 b3) = { b0 := b0, b1 := b1, b2 := b2, b3 := b3 } := by
  have h0 := b0.isLt
  have h1 := b1.isLt
  have h2 := b2.isLt
  have h3 := b3.isLt
  unfold unpack
  congr 1 <;>
    (apply BitVec.eq_of_toNat_eq
     simp only [BitVec.extractLsb'_toNat, pack_toNat, Nat.shiftRight_eq_div_pow]
     omega)

/-- `byte` of an integer the spec allows keeps it (R13). -/
theorem byte_toNat {n : Nat} (h : n ≤ 255) : (byte n).toNat = n := by
  simp only [byte, BitVec.toNat_ofNat]
  omega

/-- The clamped-ratio quantizer stays in a byte (R86). -/
theorem crq_le (c s : ℚ) : crq c s ≤ 255 := by
  unfold crq qr
  have h : 255 * min (c / s) 1 + 1 / 2 < (256 : ℚ) := by
    have := min_le_right (c / s) 1
    linarith
  have : ⌊255 * min (c / s) 1 + 1 / 2⌋₊ < 256 := by
    rw [Nat.floor_lt' (by norm_num)]
    exact_mod_cast h
  omega

end Sys2Proof.Machine
end

