-- ==== Sys2Proof/Tests/Slice0.lean ====
section
/-! SUPPORT. Tests on fixed values, most of them the vectors of 95_test_vectors.md (named V<n> and H<n> there), and for
each statement with hypotheses one state and operands that meet them together. -/

-- Kernel evaluations one at a time: each one's own thread would reserve memory of its own.
set_option Elab.async false

namespace Sys2Proof.Tests

open Sys2Proof.Machine

/-! ### Fields that are no command's (30_encoding.md R60 to R64) -/

theorem test_wf_refuses_reserved_bits : ({ op := 1, var := 0, rsv := 1 } : CmdFields).wf = false := by decide
theorem test_wf_refuses_reserved_op : ({ op := 3, var := 0, rsv := 0 } : CmdFields).wf = false := by decide
theorem test_wf_refuses_nop_with_variant : ({ op := 0, var := 1, rsv := 0 } : CmdFields).wf = false := by decide
theorem test_wf_accepts_enc_rgbe : ({ op := 1, var := 3, rsv := 0 } : CmdFields).wf = true := by decide

/-! ### Every command's word, written out from R60 and R63: RSV, VAR, OP -/

theorem test_decode_nop : decodeTableWord 32 0b00000000000000000000000000_00_0000 = some .nop := by decide
theorem test_decode_encRgbm : decodeTableWord 32 0b00000000000000000000000000_00_0001 = some .encRgbm := by decide
theorem test_decode_encRgbd : decodeTableWord 32 0b00000000000000000000000000_01_0001 = some .encRgbd := by decide
theorem test_decode_encRgbd2 : decodeTableWord 32 0b00000000000000000000000000_10_0001 = some .encRgbd2 := by decide
theorem test_decode_encRgbe : decodeTableWord 32 0b00000000000000000000000000_11_0001 = some .encRgbe := by decide
theorem test_decode_decRgbm : decodeTableWord 32 0b00000000000000000000000000_00_0010 = some .decRgbm := by decide
theorem test_decode_decRgbd : decodeTableWord 32 0b00000000000000000000000000_01_0010 = some .decRgbd := by decide
theorem test_decode_decRgbd2 : decodeTableWord 32 0b00000000000000000000000000_10_0010 = some .decRgbd2 := by decide
theorem test_decode_decRgbe : decodeTableWord 32 0b00000000000000000000000000_11_0010 = some .decRgbe := by decide

/-- H9 to H12: reserved words, each refused for its own reason. -/
theorem test_decode_names_the_reason :
    decodeCmd 0x00000003#32 = .error .opReserved ∧ decodeCmd 0x00000010#32 = .error .nopWithVariant ∧
      decodeCmd 0x00000041#32 = .error .rsvSet ∧ decodeCmd 0xFFFFFFFF#32 = .error .rsvSet :=
  ⟨rfl, rfl, rfl, rfl⟩

/-! ### One command on a small state -/

/-- The reset state with a range and three inputs. -/
def stateOf (range x0 x1 x2 : Word) : State :=
  { State.reset with regs := { Regs.reset with range := range, in0 := x0, in1 := x1, in2 := x2 } }

/-- OUT0, OUT1, OUT2 and STATUS after a command. -/
def resultsOf (i : Instr) (s : State) : Option (Word × Word × Word × Word) :=
  match exec i s with
  | .next t => some (t.regs.out0, t.regs.out1, t.regs.out2, t.regs.status)
  | .fault _ => none
  | .refused _ => none

/-- H13 (R146). -/
theorem test_nop : exec .nop (stateOf 0x41000000 1 2 3) = .next (stateOf 0x41000000 1 2 3) := rfl

/-- V9: ties round away from zero. -/
theorem test_encRgbm_ties : resultsOf .encRgbm (stateOf 0x437F0000 0x437F0000 0x3F000000 0x40200000) =
    some (0xFF0301FF, 0, 0, 0) := by decide +kernel
/-- V10: NaN, a negative input and +Inf, over range. -/
theorem test_encRgbm_out_of_domain : resultsOf .encRgbm (stateOf 0x41000000 0x7FC00000 0xBF800000 0x7F800000) =
    some (0xFFFF0000, 0, 0, 0x0F) := by decide +kernel
/-- V12. -/
theorem test_encRgbd : resultsOf .encRgbd (stateOf 0x41000000 0x3F000000 0x3E800000 0x3F800000) =
    some (0xFFFF3F7F, 0, 0, 0) := by decide +kernel
/-- V15: the divisor byte truncates to 0. -/
theorem test_encRgbd_divisor_zero : resultsOf .encRgbd (stateOf 0x41000000 0x43960000 0x3F800000 0) =
    some (0x000000FF, 0, 0, 0) := by decide +kernel
/-- V20: the divisor byte at its top. -/
theorem test_encRgbd2 : resultsOf .encRgbd2 (stateOf 0x447A0000 0x3F000000 0x3E800000 0) =
    some (0xFF001020, 0, 0, 0) := by decide +kernel
/-- V21: a range below 1 saturates. -/
theorem test_encRgbd2_saturates : resultsOf .encRgbd2 (stateOf 0x3F000000 0x3E800000 0x3F800000 0) =
    some (0x0100FF7F, 0, 0, 0x08) := by decide +kernel
/-- V26: the least value above the floor. -/
theorem test_encRgbe_floor : resultsOf .encRgbe (stateOf 0x41000000 0x0A4FB11F 0 0) =
    some (0x160000CF, 0, 0, 0) := by decide +kernel
/-- V30: the exponent clamp at 2^127. -/
theorem test_encRgbe_clamp : resultsOf .encRgbe (stateOf 0x41000000 0x7F000000 0 0) =
    some (0xFF0000FF, 0, 0, 0x08) := by decide +kernel
/-- V1's decode half. -/
theorem test_decRgbm : resultsOf .decRgbm (stateOf 0x41000000 0x80007FFE 1 2) =
    some (0x407FFEFE, 0x3FFFFEFE, 0, 0) := by decide +kernel
/-- V42: underflow to +0. -/
theorem test_decRgbm_underflow : resultsOf .decRgbm (stateOf 0x00000001 0x01010101 1 2) =
    some (0, 0, 0, 0) := by decide +kernel
/-- V46: inexact quotients. -/
theorem test_decRgbd : resultsOf .decRgbd (stateOf 0x41000000 0x03000201 1 2) =
    some (0x3EAAAAAB, 0x3F2AAAAB, 0, 0) := by decide +kernel
/-- V47: a zero divisor. -/
theorem test_decRgbd_zero_divisor : resultsOf .decRgbd (stateOf 0x41000000 0x00FFFFFF 1 2) =
    some (0, 0, 0, 0x10) := by decide +kernel
/-- V17's decode half. -/
theorem test_decRgbd2 : resultsOf .decRgbd2 (stateOf 0x41000000 0x023F7FFF 1 2) =
    some (0x40800000, 0x3FFEFEFF, 0x3F7CFCFD, 0) := by decide +kernel
/-- V49: a zero divisor. -/
theorem test_decRgbd2_zero_divisor : resultsOf .decRgbd2 (stateOf 0x41000000 0x00FFFFFF 1 2) =
    some (0, 0, 0, 0x10) := by decide +kernel
/-- V52: exponent byte 0 takes the formula. -/
theorem test_decRgbe_subnormal : resultsOf .decRgbe (stateOf 0x41000000 0x00000001 1 2) =
    some (0x00002000, 0, 0, 0) := by decide +kernel
/-- V53: the greatest result. -/
theorem test_decRgbe_greatest : resultsOf .decRgbe (stateOf 0x41000000 0xFF0000FF 1 2) =
    some (0x7EFF0000, 0, 0, 0) := by decide +kernel

/-- V16 and V22: the other `QD_MODE`. -/
theorem test_rounded_mode :
    (encRgbd .roundHalfAway 0x3F000000 0x3E800000 0x3F800000).o0 = 0xFFFF4080#32 ∧
      (encRgbd2 .roundHalfAway 0x40800000 0x40000000 0x3F800000 0x41000000).o0 = 0x024080FF#32 := by decide +kernel

/-! ### One step at the port -/

/-- The reset state with one event arriving, and some STATUS. -/
def arriving (status : Word) (e : PortEvent) : State :=
  { State.reset with regs := { Regs.reset with status := status }, pending := [e] }

/-- STATUS, RANGE and the answers after one step. -/
def portAfter (s : State) : Option (Word × Word × List Reply) :=
  match step s with
  | .next t => some (t.regs.status, t.regs.range, t.replies)
  | .fault _ => none
  | .refused _ => none

/-- H4. -/
theorem test_range_zero_rejected :
    portAfter (arriving 0 (busWrite 0x04 0)) = some (0x40, 0x41000000, [.written]) := by decide
/-- H6. -/
theorem test_status_clear : portAfter (arriving 0x8F (busWrite 0x08 0x08)) =
    some (0x87, 0x41000000, [.written]) := by decide
/-- H7: bits 31:8 of the written word are ignored. -/
theorem test_status_high_bits : portAfter (arriving 0x8F (busWrite 0x08 0xFFFFFF00)) =
    some (0x8F, 0x41000000, [.written]) := by decide
/-- H10. -/
theorem test_reserved_word : portAfter (arriving 0 (busWrite 0x0C 0x10)) =
    some (0x80, 0x41000000, [.written]) := by decide
/-- H17. -/
theorem test_misaligned_read : portAfter (arriving 0 (.transaction 0x1E (.read 4))) =
    some (0, 0x41000000, [.busError]) := by decide
/-- H19: partial byte enables. -/
theorem test_partial_write : portAfter (arriving 0 (.transaction 0x0C (.write 4 1 0b0001))) =
    some (0, 0x41000000, [.busError]) := by decide
/-- H1. -/
theorem test_read_id : portAfter (arriving 0 (busRead 0x00)) =
    some (0, 0x41000000, [.data 0x52474258]) := by decide
/-- R66: the disassembly of a reserved word. -/
theorem test_disassemble_reserved : disassemble 0x000000AF#32 = ".word 0x000000AF" := by decide
/-- R66: `f:` and `px` values, as in V1. -/
theorem test_host_values : (HostValue.float 4).word = some 0x40800000#32 ∧
    (HostValue.px 254 127 0 128).word = some 0x80007FFE#32 := by decide +kernel

/-! ### Witnesses: the hypotheses of each statement are met together -/

/-- A word of a command arrives at CMD, at the port and by platform address. -/
theorem test_witness_StepRunsTheDecodedCommand :
    NextWrite (arriving 0 (busWrite 0x0C 0x31)) 0x0C 0x31 [] ∧ decodeCmd 0x31#32 = .ok .encRgbe ∧
      Instr.encRgbe.wf = true := ⟨⟨rfl, .inl rfl⟩, rfl, rfl⟩

theorem test_witness_NextTransaction_by_address :
    NextTransaction (arriving 0 (.atAddress (Config.base 0 + 0x0C) (.read 4))) 0x0C (.read 4) [] := by
  refine ⟨rfl, .inr ⟨Config.base 0 + 0x0C, rfl, ?_⟩⟩
  show windowOffset 0 (Config.base 0 + 0x0C) = some 0x0C
  unfold windowOffset
  rw [if_pos ⟨by omega, by omega⟩, Nat.add_sub_cancel_left]
  rfl

theorem test_witness_DecodeAndEncodeAgree : Instr.nop.wf = true ∧ Instr.decRgbe.wf = true := ⟨rfl, rfl⟩

theorem test_witness_PlacedWordRunsNext : decodeTableWord 32 0x32 = some .decRgbe := by decide

theorem test_witness_ReservedWordSetsOnlyCmdErr :
    NextWrite (arriving 0 (busWrite 0x0C 0x03)) 0x0C 0x03 [] ∧ decodeCmd 0x03#32 = .error .opReserved :=
  ⟨⟨rfl, .inl rfl⟩, rfl⟩

/-- One witness for each way an access is refused. -/
theorem test_witness_RefusedAccessIsBusErrorOnly :
    (NextTransaction (arriving 0 (.transaction 0x1D (.read 4))) 0x1D (.read 4) [] ∧ (0x1D#6).toNat % 4 ≠ 0) ∧
    (NextTransaction (arriving 0 (.transaction 0x1C (.read 8))) 0x1C (.read 8) [] ∧ 8 ≠ 4) ∧
    (NextTransaction (arriving 0 (.transaction 0x0C (.write 4 1 0b0111))) 0x0C (.write 4 1 0b0111) [] ∧
      0b0111#4 ≠ 0b1111#4) ∧
    NextTransaction (arriving 0 (.transaction 0x0C (.write 2 1 0b1111))) 0x0C (.write 2 1 0b1111) [] :=
  ⟨⟨⟨rfl, .inl rfl⟩, by decide⟩, ⟨⟨rfl, .inl rfl⟩, by decide⟩, ⟨⟨rfl, .inl rfl⟩, by decide⟩, ⟨rfl, .inl rfl⟩⟩

/-- The first and the last offset of the window's words. -/
theorem test_witness_ReadAnswersTheRegister :
    (NextTransaction (arriving 0 (busRead 0x00)) 0x00 (.read 4) [] ∧ (0x00#6).toNat % 4 = 0) ∧
    (NextTransaction (arriving 0 (busRead 0x3C)) 0x3C (.read 4) [] ∧ (0x3C#6).toNat % 4 = 0) :=
  ⟨⟨⟨rfl, .inl rfl⟩, rfl⟩, ⟨⟨rfl, .inl rfl⟩, rfl⟩⟩

theorem test_witness_RangeWriteStoresOrSetsRangeErr :
    NextWrite (arriving 0 (busWrite 0x04 0x7F7FFFFF)) 0x04 0x7F7FFFFF [] ∧
      NextWrite (arriving 0 (busWrite 0x04 0x7F800000)) 0x04 0x7F800000 [] := ⟨⟨rfl, .inl rfl⟩, ⟨rfl, .inl rfl⟩⟩

theorem test_witness_StatusWriteClearsItsOnes : NextWrite (arriving 0x8F (busWrite 0x08 0x08)) 0x08 0x08 [] :=
  ⟨rfl, .inl rfl⟩

theorem test_witness_InputWriteStoresTheWord :
    NextWrite (arriving 0 (busWrite 0x10 7)) 0x10 7 [] ∧ NextWrite (arriving 0 (busWrite 0x14 7)) 0x14 7 [] ∧
      NextWrite (arriving 0 (busWrite 0x18 7)) 0x18 7 [] := ⟨⟨rfl, .inl rfl⟩, ⟨rfl, .inl rfl⟩, ⟨rfl, .inl rfl⟩⟩

theorem test_witness_ReadOnlyWriteIsIgnored :
    (NextWrite (arriving 0 (busWrite 0x00 7)) 0x00 7 [] ∧ (0x00#6).toNat % 4 = 0) ∧
    (NextWrite (arriving 0 (busWrite 0x1C 7)) 0x1C 7 [] ∧ (0x1C#6).toNat % 4 = 0 ∧ 0x1C ≤ (0x1C#6).toNat) ∧
    (NextWrite (arriving 0 (busWrite 0x3C 7)) 0x3C 7 [] ∧ (0x3C#6).toNat % 4 = 0 ∧ 0x1C ≤ (0x3C#6).toNat) :=
  ⟨⟨⟨rfl, .inl rfl⟩, rfl⟩, ⟨⟨rfl, .inl rfl⟩, rfl, by decide⟩, ⟨⟨rfl, .inl rfl⟩, rfl, by decide⟩⟩

theorem test_witness_EachTransactionIsAnsweredOnce :
    (arriving 0 .powerUp).pending = .powerUp :: [] ∧ (arriving 0 (busRead 0)).pending = busRead 0 :: [] := ⟨rfl, rfl⟩

theorem test_witness_IdleBlockKeepsItsState : State.reset.pending = [] := rfl

/-- Addresses inside and outside the window, at its edges. -/
theorem test_witness_AddressesReachOnlyTheWindow :
    (arriving 0 (.atAddress (Config.base 0) (.read 4))).pending = .atAddress (Config.base 0) (.read 4) :: [] ∧
      (Config.base 0 ≤ Config.base 0 + 63 ∧ Config.base 0 + 63 < Config.base 0 + 64) ∧
      ¬ (Config.base 0 ≤ Config.base 0 + 64 ∧ Config.base 0 + 64 < Config.base 0 + 64) :=
  ⟨rfl, ⟨by omega, by omega⟩, by omega⟩

/-- Each clause: reset asserted, a transaction during it, its release. -/
theorem test_witness_ResetInputRestoresEveryRegister :
    NextReset (arriving 0 (.resetInput true)) ∧ NextReset (arriving 0 .powerUp) ∧
      (assertReset (arriving 0 (busRead 0))).resetLine = true ∧
      (assertReset (arriving 0 (busRead 0))).pending = .transaction 0 (.read 4) :: [] ∧
      (arriving 0 (.resetInput false)).pending = .resetInput false :: [] :=
  ⟨⟨[], .inl rfl⟩, ⟨[], .inr rfl⟩, rfl, rfl, rfl⟩

/-- A sound state, not the reset state: RANGE at its least, STATUS full, OUT1 at MAXF, a command arriving. -/
def busyState : State :=
  { regs := { range := 1, status := 0xFF, in0 := 0xFFFFFFFF, in1 := 1, in2 := 2, out0 := 9, out1 := 0x7F7FFFFF, out2 := 0 }
    window := 0, resetLine := false, pending := [busWrite 0x0C 0x02], replies := [] }

theorem test_witness_SoundStateStaysSound :
    busyState.Sound ∧ ∃ t, step busyState = .next t :=
  ⟨{ range := show legalRange 0x00000001#32 = true by decide
     status := show (0x000000FF#32).toNat < 2 ^ 8 by decide
     results := ⟨by decide, by decide⟩
     held := fun h => absurd h (by decide) }, ⟨_, rfl⟩⟩

theorem test_witness_StatusBitsAreSticky :
    ∃ t, step (arriving 0x8F (busWrite 0x08 0x08)) = .next t ∧
      (arriving 0x8F (busWrite 0x08 0x08)).regs.status.getLsbD 3 = true ∧ t.regs.status.getLsbD 3 = false :=
  ⟨_, rfl, by decide, by decide⟩

theorem test_witness_StatusBitsHaveTheirOwnCause :
    ∃ t, step (arriving 0 (busWrite 0x0C 0x12)) = .next t ∧
      (arriving 0 (busWrite 0x0C 0x12)).regs.status.getLsbD 4 = false ∧ t.regs.status.getLsbD 4 = true :=
  ⟨_, rfl, by decide, by decide +kernel⟩

theorem test_witness_RangeChangesOnlyByItsWrite :
    ∃ t, step (arriving 0 (busWrite 0x04 1)) = .next t ∧ t.regs.range ≠ (arriving 0 (busWrite 0x04 1)).regs.range :=
  ⟨_, rfl, by decide⟩

theorem test_witness_InputsChangeOnlyByTheirWrites :
    (∃ t, step (arriving 0 (busWrite 0x10 1)) = .next t ∧ t.regs.in0 ≠ 0) ∧
      (∃ t, step (arriving 0 (busWrite 0x14 1)) = .next t ∧ t.regs.in1 ≠ 0) ∧
      (∃ t, step (arriving 0 (busWrite 0x18 1)) = .next t ∧ t.regs.in2 ≠ 0) :=
  ⟨⟨_, rfl, by decide⟩, ⟨_, rfl, by decide⟩, ⟨_, rfl, by decide⟩⟩

theorem test_witness_ResultsChangeOnlyByCommands :
    ∃ t, step busyState = .next t ∧ t.regs.out1 ≠ busyState.regs.out1 := ⟨_, rfl, by decide +kernel⟩

/-- Two wired blocks; an address at the last byte of window 1, and one just above window 0, which lies in no window of a
platform with one block. -/
theorem test_witness_InstancesHaveTheirOwnWindows :
    OwnWindows [State.reset, { State.reset with window := 1 }] ∧
      [State.reset, { State.reset with window := 1 }][1]? = some { State.reset with window := 1 } ∧
      windowOffset 1 (Config.base 1 + 63) = some 63#6 ∧ windowOffset 0 (Config.base 0 + 64) = none ∧
      ∃ q, stepInstance 1 [State.reset, { State.reset with window := 1 }] = .next q := by
  refine ⟨?_, rfl, ?_, ?_, ⟨_, rfl⟩⟩
  · intro k s h
    match k with
    | 0 => cases h; rfl
    | 1 => cases h; rfl
    | _ + 2 => cases h
  · unfold windowOffset
    rw [if_pos ⟨by omega, by omega⟩, Nat.add_sub_cancel_left]
  · unfold windowOffset
    rw [if_neg (by omega)]

theorem test_witness_InstancesShareNothing : [State.reset, busyState][1]? = some busyState := rfl

/-- For DEC.RGBE the two states differ in everything it does not read. -/
theorem test_witness_CommandsDependOnlyOnTheirOperands :
    Instr.decRgbe ≠ .nop ∧ (stateOf 1 9 1 1).regs.in0 = (stateOf 2 9 2 2).regs.in0 ∧
      Instr.decRgbe ∈ [Instr.decRgbm, Instr.decRgbd, Instr.decRgbd2, Instr.decRgbe] ∧
      Instr.decRgbe ∈ [Instr.encRgbd, Instr.encRgbe, Instr.decRgbd, Instr.decRgbe] :=
  ⟨by decide, rfl, by decide, by decide⟩

/-- The last clause of `CommandsLeaveTheRestUnchanged`, and its encode clause. -/
theorem test_witness_CommandsLeaveTheRestUnchanged :
    Instr.encRgbd ∈ [Instr.encRgbm, Instr.encRgbd, Instr.encRgbd2, Instr.encRgbe] ∧
      0x04#6 ∉ [0x08#6, 0x1C#6, 0x20#6, 0x24#6] := ⟨by decide, by decide⟩

theorem test_witness_FlagsOfOneCommandAreSetTogether :
    (stateOf 0x41000000 0x7F800000 0x7FC00000 0xBF800000).regs.in0 = 0x7F800000#32 ∧
      (stateOf 0x41000000 0x7F800000 0x7FC00000 0xBF800000).regs.in1 = 0x7FC00000#32 ∧
      (stateOf 0x41000000 0x7F800000 0x7FC00000 0xBF800000).regs.in2 = 0xBF800000#32 := ⟨rfl, rfl, rfl⟩

/-- The edges of each class: the first and last NaN of each sign, +Inf, -0, the least negative, -Inf, MAXF. -/
theorem test_witness_SanitiserTreatsEachClass :
    0x7F800000 < (0x7F800001#32).toNat % 2 ^ 31 ∧ 0x7F800000 < (0xFFFFFFFF#32).toNat % 2 ^ 31 ∧
      (0x7F800000#32).toNat = 0x7F800000 ∧ (0x80000000#32).toNat = 0x80000000 ∧
      (0x80000000 < (0x80000001#32).toNat ∧ (0xFF800000#32).toNat ≤ 0xFF800000) ∧
      (0x7F7FFFFF#32).toNat < 0x7F800000 := by decide

/-- The same edges through the sanitiser itself. -/
theorem test_sanitiser_edges :
    san 0xFF800001 = ⟨0, [.inNan]⟩ ∧ san 0x7F800000 = ⟨(2 ^ 24 - 1) * 2 ^ 104, [.inInf]⟩ ∧ san 0x80000000 = ⟨0, []⟩ ∧
      san 0x80000001 = ⟨0, [.inNeg]⟩ ∧ san 0xFF800000 = ⟨0, [.inNeg]⟩ ∧ san 0x00000001 = ⟨1 / 2 ^ 149, []⟩ := by
  decide +kernel

theorem test_witness_FiniteNonneg : isFiniteNonneg 0x00000000#32 = true ∧ isFiniteNonneg 0x7F7FFFFF#32 = true ∧
    isFiniteNonneg 0x7F800000#32 = false ∧ isFiniteNonneg 0x80000000#32 = false := by decide

theorem test_witness_Rne32IsTheNearestTiesToEven :
    (0 : ℚ) ≤ (2 ^ 24 - 1) * 2 ^ 104 ∧ ((2 ^ 24 - 1) * 2 ^ 104 : ℚ) ≤ (2 ^ 24 - 1) * 2 ^ 104 := by norm_num

theorem test_witness_FrexpGivesTheUniquePair :
    (0 : ℚ) < 1 ∧ (1 : ℚ) = 1 / 2 * 2 ^ (1 : ℤ) ∧ (1 / 2 : ℚ) ≤ 1 / 2 ∧ (1 / 2 : ℚ) < 1 := by norm_num

theorem test_witness_SharedExponentStaysInRange :
    (1 / 10 ^ 32 : ℚ) ≤ 1 ∧ (1 : ℚ) ≤ (2 ^ 24 - 1) * 2 ^ 104 := by norm_num

/-- Ratio below 1, at 1 and above 1. -/
theorem test_witness_ClampedRatioStaysInAByte :
    (0 : ℚ) ≤ 0 ∧ (0 : ℚ) < 1 ∧ (0 : ℚ) ≤ 1 ∧ (1 : ℚ) ≤ 1 ∧ (1 : ℚ) ≤ 2 := by norm_num

/-- For the statements on commands that read RANGE: the least and the greatest legal range. -/
theorem test_witness_RangeIsLegal :
    RangeIsLegal (stateOf 0x00000001 0x40800000 0 0) ∧ RangeIsLegal (stateOf 0x7F7FFFFF 0xFFFFFFFF 0 0) := by
  unfold RangeIsLegal; decide

theorem test_witness_DecRgbmResult : RangeIsLegal (stateOf 0x00000001 0xFFFFFFFF 0 0) ∧
    (stateOf 0x00000001 0xFFFFFFFF 0 0).regs.in0 = 0xFFFFFFFF#32 := by
  unfold RangeIsLegal; decide

theorem test_witness_EncRgbdResult_largest_channel :
    (san (stateOf 0x41000000 0x41000000 0 0).regs.in0).value = 8 := by decide +kernel

/-- A state whose ENC.RGBD2 saturates (V21), and an ENC.RGBM pixel that is not black. -/
theorem test_witness_saturation :
    255 < ⌊255 * (san 0x3F800000#32).value * 1 / val 0x3F000000#32⌋₊ ∧ (san 0x3F800000#32).value ≠ 0 := by
  decide +kernel

theorem test_witness_RoundedModeRoundsTheSameBytes : legalRange 0x41000000#32 = true := by decide

theorem test_witness_GreyPixelsEncodeToEqualBytes :
    Instr.encRgbm ∈ [Instr.encRgbm, Instr.encRgbd, Instr.encRgbd2, Instr.encRgbe] ∧
      (stateOf 0x41000000 0x40400000 0x40400000 0x40400000).regs.in1 =
        (stateOf 0x41000000 0x40400000 0x40400000 0x40400000).regs.in0 ∧
      (stateOf 0x41000000 0x40400000 0x40400000 0x40400000).regs.in2 =
        (stateOf 0x41000000 0x40400000 0x40400000 0x40400000).regs.in0 := ⟨by decide, rfl, rfl⟩

/-- V23 and V31: the same pixel times 4, `k = 2`. -/
theorem test_witness_RgbeScalingMovesOnlyTheExponent :
    (san 0x40400000#32).value = (san 0x3F400000#32).value * 2 ^ (2 : ℤ) ∧
      (san 0x40000000#32).value = (san 0x3F000000#32).value * 2 ^ (2 : ℤ) ∧
      (san 0x3F000000#32).value = (san 0x3E000000#32).value * 2 ^ (2 : ℤ) ∧
      1 / 10 ^ 32 ≤ max (san 0x3F400000#32).value (max (san 0x3F000000#32).value (san 0x3E000000#32).value) ∧
      max (san 0x40400000#32).value (max (san 0x40000000#32).value (san 0x3F000000#32).value) < 2 ^ 127 := by
  decide +kernel

/-- Every channel at most the range, one of them equal to it. -/
theorem test_witness_RoundTrips :
    RangeIsLegal (stateOf 0x41000000 0x41000000 0x40000000 0) ∧
      (∀ x ∈ [0x41000000#32, 0x40000000#32, 0x00000000#32], (san x).value ≤ val 0x41000000#32) :=
  ⟨by unfold RangeIsLegal; decide, by
    simp only [List.forall_mem_cons]
    exact ⟨by decide +kernel, by decide +kernel, by decide +kernel, by simp⟩⟩

/-- The largest channel above the floor, below it (but not black), and below `2^127`. -/
theorem test_witness_RgbeRoundTripIsWithinAStep :
    (san 0x0A4FB11F#32).value < 2 ^ 127 ∧ ¬ (san 0x0A4FB11F#32).value < 1 / 10 ^ 32 ∧
      (san 0x0A4FB11E#32).value < 1 / 10 ^ 32 ∧ 0 < (san 0x0A4FB11E#32).value := by decide +kernel

theorem test_witness_MnemonicsNameTheirCommands : decodeCmd 0x30#32 = .error .nopWithVariant := rfl

end Sys2Proof.Tests
end

section
/-! PROOFS. binary32 as a grid of multiples of powers of two (00_scope.md R10 to R12). A non-negative finite pattern
with number `K * 2^23 + n` has the value `n * ulp K`; the values grow with the patterns, and `RNE32` rounds on the grid of
the argument's own binade. -/

namespace Sys2Proof.Machine

/-! ### Rounding to an integer (R11) -/

/-- The half-unit bound and the tie rule of R11, from which every other fact about `rne` follows. -/
theorem rne_error {q : ℚ} (h : 0 ≤ q) :
    |(rne q : ℚ) - q| ≤ 1 / 2 ∧ (|(rne q : ℚ) - q| = 1 / 2 → rne q % 2 = 0) := by
  have hlo : (⌊q⌋₊ : ℚ) ≤ q := Nat.floor_le h
  have hhi : q < ⌊q⌋₊ + 1 := Nat.lt_floor_add_one q
  have down : |(⌊q⌋₊ : ℚ) - q| = q - ⌊q⌋₊ := by rw [abs_of_nonpos] <;> linarith
  have up : |((⌊q⌋₊ + 1 : ℕ) : ℚ) - q| = ⌊q⌋₊ + 1 - q := by push_cast; rw [abs_of_nonneg]; linarith
  unfold rne
  dsimp only
  split_ifs with below above even
  · rw [down]
    exact ⟨below.le, fun tie => absurd tie below.ne⟩
  · rw [up]
    exact ⟨by linarith, fun tie => by linarith⟩
  · rw [down]
    exact ⟨not_lt.mp above, fun _ => even⟩
  · rw [up]
    exact ⟨by linarith, fun _ => by omega⟩

/-- No integer is nearer to `q` than `rne q`, and where another is as near, `rne q` is even (R11). -/
theorem rne_nearest {q : ℚ} (h : 0 ≤ q) (m : ℕ) :
    |(rne q : ℚ) - q| ≤ |(m : ℚ) - q| ∧
      (m ≠ rne q → |(m : ℚ) - q| = |(rne q : ℚ) - q| → rne q % 2 = 0) := by
  obtain ⟨half, even⟩ := rne_error h
  by_cases hm : m = rne q
  · exact ⟨by rw [hm], fun ne => absurd hm ne⟩
  have apart : (1 : ℚ) ≤ |(m : ℚ) - rne q| := by
    have : (1 : ℤ) ≤ |(m : ℤ) - rne q| := Int.one_le_abs (by omega)
    exact_mod_cast this
  have triangle : |(m : ℚ) - rne q| ≤ |(m : ℚ) - q| + |q - rne q| := abs_sub_le _ _ _
  rw [abs_sub_comm q] at triangle
  exact ⟨by linarith, fun _ tie => even (by linarith)⟩

theorem rne_le {q : ℚ} {m : ℕ} (h : 0 ≤ q) (hm : q ≤ m) : rne q ≤ m := by
  by_contra above
  have next : (m : ℚ) + 1 ≤ rne q := by exact_mod_cast not_le.mp above
  have near := (rne_nearest h m).1
  rw [abs_of_nonneg (by linarith), abs_of_nonneg (by linarith)] at near
  linarith

theorem le_rne {q : ℚ} {m : ℕ} (hm : (m : ℚ) ≤ q) : m ≤ rne q := by
  by_contra below
  have next : (rne q : ℚ) + 1 ≤ m := by exact_mod_cast not_le.mp below
  have near := (rne_nearest (m.cast_nonneg.trans hm) m).1
  rw [abs_of_nonpos (by linarith), abs_of_nonpos (by linarith)] at near
  linarith

/-! ### The grid of each binade -/

/-- The spacing of the values with exponent field `K + 1`, which for `K = 0` is also that of the subnormals (R10). -/
def ulp (K : ℕ) : ℚ := 2 ^ ((K : ℤ) - 149)

theorem ulp_pos (K : ℕ) : 0 < ulp K := by unfold ulp; positivity

theorem ulp_add (K d : ℕ) : ulp (K + d) = 2 ^ d * ulp K := by
  unfold ulp
  rw [← zpow_natCast, ← zpow_add₀ (by norm_num)]
  congr 1
  push_cast
  ring

/-- The pattern `x` stands for `n` steps of `ulp K`. The upper end `n = 2^24` is the first value of the next binade,
which is where a rounding can carry to (R12). -/
structure OnGrid (x : Word) (K n : ℕ) : Prop where
  toNat : x.toNat = K * 2 ^ 23 + n
  finite : x.toNat < 0x7F800000
  le : n ≤ 2 ^ 24
  normal : K = 0 ∨ 2 ^ 23 ≤ n

theorem exists_onGrid {x : Word} (h : isFiniteNonneg x = true) : ∃ K n, OnGrid x K n ∧ n < 2 ^ 24 := by
  rw [isFiniteNonneg_iff] at h
  by_cases sub : x.toNat < 2 ^ 23
  · exact ⟨0, x.toNat, ⟨by omega, h, by omega, .inl rfl⟩, by omega⟩
  · exact ⟨x.toNat / 2 ^ 23 - 1, 2 ^ 23 + x.toNat % 2 ^ 23, ⟨by omega, h, by omega, .inr (by omega)⟩, by omega⟩

theorem signBit_eq_false_of_lt {x : Word} (h : x.toNat < 2 ^ 31) : signBit x = false := by
  rw [Bool.eq_false_iff, ne_eq, signBit_iff]
  omega

/-- The value of a pattern with sign 0, by the two formulas of R10 on its number. -/
theorem val_eq_of_toNat_lt {x : Word} (h : x.toNat < 2 ^ 31) :
    val x = if x.toNat / 2 ^ 23 = 0 then (x.toNat % 2 ^ 23 : ℕ) * ulp 0
      else ((2 ^ 23 + x.toNat % 2 ^ 23 : ℕ) : ℚ) * 2 ^ (((x.toNat / 2 ^ 23 : ℕ) : ℤ) - 150) := by
  have exponent : expField x = x.toNat / 2 ^ 23 := by
    simp only [expField, BitVec.extractLsb'_toNat, Nat.shiftRight_eq_div_pow]
    omega
  have fraction : fracField x = x.toNat % 2 ^ 23 := by
    simp only [fracField, BitVec.extractLsb'_toNat, Nat.shiftRight_eq_div_pow]
    omega
  simp only [val, signBit_eq_false_of_lt h, exponent, fraction, Bool.false_eq_true, if_false, ulp]
  push_cast
  rfl

theorem OnGrid.val_eq {x : Word} {K n : ℕ} (g : OnGrid x K n) : val x = n * ulp K := by
  obtain ⟨number, finite, le, normal⟩ := g
  rw [val_eq_of_toNat_lt (by omega)]
  rcases lt_or_ge n (2 ^ 23) with sub | norm
  · have hK : K = 0 := by omega
    subst hK
    rw [if_pos (by omega), show x.toNat % 2 ^ 23 = n by omega]
  rw [if_neg (by omega)]
  rcases le.lt_or_eq with inside | carry
  · rw [show x.toNat / 2 ^ 23 = K + 1 by omega, show 2 ^ 23 + x.toNat % 2 ^ 23 = n by omega, ulp]
    congr 2
    push_cast
    ring
  · rw [show x.toNat / 2 ^ 23 = K + 2 by omega, show x.toNat % 2 ^ 23 = 0 by omega, carry,
      show (((K + 2 : ℕ) : ℤ) - 150) = ((K : ℤ) - 149) + 1 by push_cast; ring, zpow_add_one₀ (by norm_num), ulp]
    push_cast
    ring

theorem OnGrid.finiteNonneg {x : Word} {K n : ℕ} (g : OnGrid x K n) : isFiniteNonneg x = true :=
  (isFiniteNonneg_iff x).mpr g.finite

/-- Every value of a lower binade lies below the least normal value of a higher one. -/
theorem OnGrid.val_lt_of_lt {x : Word} {J K n : ℕ} (g : OnGrid x J n) (lt : n < 2 ^ 24) (h : J < K) :
    val x < 2 ^ 23 * ulp K := by
  obtain ⟨d, rfl⟩ := Nat.exists_eq_add_of_lt h
  have hn : (n : ℚ) < 2 ^ 24 := by exact_mod_cast lt
  calc val x = n * ulp J := g.val_eq
    _ < 2 ^ 24 * ulp J := mul_lt_mul_of_pos_right hn (ulp_pos J)
    _ = 2 ^ 23 * (2 ^ 1 * ulp J) := by ring
    _ ≤ 2 ^ 23 * (2 ^ (d + 1) * ulp J) := by
      have := ulp_pos J
      gcongr
      · norm_num
      · omega
    _ = 2 ^ 23 * ulp (J + d + 1) := by rw [add_assoc, ulp_add]

/-- Every value of a binade or a higher one is a multiple of the binade's spacing. -/
theorem OnGrid.val_eq_of_le {x : Word} {J K n : ℕ} (g : OnGrid x J n) (h : K ≤ J) :
    val x = (n * 2 ^ (J - K) : ℕ) * ulp K := by
  obtain ⟨d, rfl⟩ := Nat.exists_eq_add_of_le h
  rw [g.val_eq, ulp_add, Nat.add_sub_cancel_left]
  push_cast
  ring

/-! ### The order of the values (R10) -/

theorem val_lt_of_toNat_lt {x y : Word} (hx : isFiniteNonneg x = true) (hy : isFiniteNonneg y = true)
    (h : x.toNat < y.toNat) : val x < val y := by
  obtain ⟨J, m, gx, hm⟩ := exists_onGrid hx
  obtain ⟨K, n, gy, hn⟩ := exists_onGrid hy
  have xNumber := gx.toNat
  have yNumber := gy.toNat
  have xNormal := gx.normal
  have yNormal := gy.normal
  rcases lt_trichotomy J K with lower | rfl | higher
  · have normal : (2 : ℚ) ^ 23 ≤ n := by exact_mod_cast yNormal.resolve_left (by omega)
    calc val x < 2 ^ 23 * ulp K := gx.val_lt_of_lt hm lower
      _ ≤ n * ulp K := mul_le_mul_of_nonneg_right normal (ulp_pos K).le
      _ = val y := gy.val_eq.symm
  · rw [gx.val_eq, gy.val_eq]
    exact mul_lt_mul_of_pos_right (by exact_mod_cast (by omega : m < n)) (ulp_pos J)
  · omega

theorem val_lt_iff {x y : Word} (hx : isFiniteNonneg x = true) (hy : isFiniteNonneg y = true) :
    val x < val y ↔ x.toNat < y.toNat := by
  refine ⟨fun h => ?_, val_lt_of_toNat_lt hx hy⟩
  rcases lt_trichotomy x.toNat y.toNat with lt | eq | gt
  · exact lt
  · rw [BitVec.eq_of_toNat_eq eq] at h
    exact absurd h (lt_irrefl _)
  · exact absurd (val_lt_of_toNat_lt hy hx gt) h.asymm

theorem val_inj {x y : Word} (hx : isFiniteNonneg x = true) (hy : isFiniteNonneg y = true) (h : val x = val y) :
    x = y := by
  have not_lt := (val_lt_iff hx hy).not.mp h.not_lt
  have not_gt := (val_lt_iff hy hx).not.mp h.not_gt
  exact BitVec.eq_of_toNat_eq (by omega)

/-- MAXF as the largest multiple of its binade's spacing (R10). -/
theorem maxF_onGrid : OnGrid maxF 253 (2 ^ 24 - 1) := ⟨rfl, by decide, by decide, .inr (by decide)⟩

theorem val_maxF : val maxF = (2 ^ 24 - 1) * 2 ^ 104 := by
  rw [maxF_onGrid.val_eq, ulp]
  norm_num

theorem val_le_maxF {x : Word} (h : isFiniteNonneg x = true) : val x ≤ (2 ^ 24 - 1) * 2 ^ 104 := by
  rw [← val_maxF, ← not_lt, val_lt_iff maxF_onGrid.finiteNonneg h]
  have hx := (isFiniteNonneg_iff x).mp h
  have hm : maxF.toNat = 0x7F7FFFFF := rfl
  omega

/-- Settles O35: a lower binade lies wholly below a higher one, and within a binade the number counts the steps. -/
theorem valueGrowsWithThePattern : Obligations.ValueGrowsWithThePattern :=
  fun _ _ hx hy => val_lt_iff hx hy

/-! ### Rounding to the nearest binary32 (R12) -/

/-- Rounding on one grid is exact binary32 rounding: the grid must be the one of the binade of `q`, so that every
pattern off the grid lies below a grid point that is itself at most `q`. -/
theorem OnGrid.isRne32 {q : ℚ} {y : Word} {K : ℕ} (h : 0 ≤ q) (g : OnGrid y K (rne (q / ulp K)))
    (binade : K = 0 ∨ 2 ^ 23 * ulp K ≤ q) : IsRne32 q y := by
  have pos := ulp_pos K
  have steps : 0 ≤ q / ulp K := by positivity
  have distance (m : ℕ) : |(m : ℚ) * ulp K - q| = |(m : ℚ) - q / ulp K| * ulp K := by
    rw [← abs_of_pos pos, ← abs_mul, abs_of_pos pos, sub_mul, div_mul_cancel₀ _ pos.ne']
  have nearest (m : ℕ) : |val y - q| ≤ |(m : ℚ) * ulp K - q| := by
    rw [g.val_eq, distance, distance]
    exact mul_le_mul_of_nonneg_right (rne_nearest steps m).1 pos.le
  refine ⟨g.finiteNonneg, fun z hz => ?_⟩
  obtain ⟨J, n, gz, hn⟩ := exists_onGrid hz
  rcases le_or_gt K J with on | off
  · have hval := gz.val_eq_of_le on
    refine ⟨hval ▸ nearest _, fun ne tie => ?_⟩
    have other : n * 2 ^ (J - K) ≠ rne (q / ulp K) := fun same =>
      ne (val_inj hz g.finiteNonneg (by rw [hval, g.val_eq, same]))
    rw [hval, g.val_eq, distance, distance] at tie
    have even := (rne_nearest steps _).2 other (mul_right_cancel₀ pos.ne' tie)
    have number := g.toNat
    rw [BitVec.getLsbD, Nat.testBit_zero]
    exact decide_eq_false (by omega)
  · have below := gz.val_lt_of_lt hn off
    have least : 2 ^ 23 * ulp K ≤ q := binade.resolve_left (by omega)
    have near := nearest (2 ^ 23)
    have closer : |((2 ^ 23 : ℕ) : ℚ) * ulp K - q| < |val z - q| := by
      push_cast
      rw [abs_of_nonpos (by linarith), abs_of_nonpos (by linarith)]
      linarith
    exact ⟨(near.trans_lt closer).le, fun _ tie => absurd tie (near.trans_lt closer).ne'⟩

/-- The grid `RNE32` rounds on (R12): that of the binade of `q`, or of the subnormals below the least normal value. -/
def binadeOf (q : ℚ) : ℕ := (Int.log 2 q + 126).toNat

theorem lt_ulp_binadeOf (q : ℚ) : q < 2 ^ 24 * ulp (binadeOf q) := by
  have top : q < (2 : ℚ) ^ (Int.log 2 q + 1) := by exact_mod_cast Int.lt_zpow_succ_log_self (b := 2) (by norm_num) q
  refine top.trans_le ?_
  rw [ulp, ← zpow_natCast, ← zpow_add₀ (by norm_num)]
  apply zpow_le_zpow_right₀ (by norm_num)
  unfold binadeOf
  omega

theorem binadeOf_eq_zero {q : ℚ} (sub : Int.log 2 q < -126) : binadeOf q = 0 := by
  unfold binadeOf
  omega

theorem ulp_binadeOf_le {q : ℚ} (h : 0 < q) (normal : -126 ≤ Int.log 2 q) : 2 ^ 23 * ulp (binadeOf q) ≤ q := by
  have bottom : (2 : ℚ) ^ Int.log 2 q ≤ q := by exact_mod_cast Int.zpow_log_le_self (b := 2) (by norm_num) h
  refine le_trans ?_ bottom
  rw [ulp, ← zpow_natCast, ← zpow_add₀ (by norm_num)]
  apply zpow_le_zpow_right₀ (by norm_num)
  unfold binadeOf
  omega

theorem binadeOf_eq_zero_or_le {q : ℚ} (h : 0 < q) : binadeOf q = 0 ∨ 2 ^ 23 * ulp (binadeOf q) ≤ q :=
  (lt_or_ge (Int.log 2 q) (-126)).imp binadeOf_eq_zero (ulp_binadeOf_le h)

theorem binadeOf_le {q : ℚ} (h : 0 < q) (hmax : q ≤ (2 ^ 24 - 1) * 2 ^ 104) : binadeOf q ≤ 253 := by
  have bound : q < ((2 : ℕ) : ℚ) ^ (128 : ℤ) := by
    refine hmax.trans_lt ?_
    norm_num
  have := (Int.lt_zpow_iff_log_lt (by norm_num) h).mp bound
  unfold binadeOf
  omega

/-- Packing the exponent byte above the fraction adds it in units of 2^23 (R12). -/
theorem signlessPattern_toNat {e f : ℕ} (he : e < 2 ^ 8) (hf : f < 2 ^ 23) :
    (0#1 ++ BitVec.ofNat 8 e ++ BitVec.ofNat 23 f).toNat = e * 2 ^ 23 + f := by
  have exponent : (BitVec.ofNat 8 e).toNat = e := Nat.mod_eq_of_lt he
  have fraction : (BitVec.ofNat 23 f).toNat = f := Nat.mod_eq_of_lt hf
  rw [BitVec.toNat_append, fraction, ← Nat.shiftLeft_add_eq_or_of_lt hf, BitVec.toNat_append, exponent]
  simp [Nat.shiftLeft_eq]

theorem normalPattern_toNat {e : ℤ} {n : ℕ} (lo : -127 ≤ e) (hi : e ≤ 128) (hn : n < 2 ^ 24) :
    (normalPattern e n).toNat = (e + 127).toNat * 2 ^ 23 + (n - 2 ^ 23) :=
  signlessPattern_toNat (by omega) (by omega)

/-- Rounding carries at most to the first value of the next binade (R12). -/
theorem rne_binadeOf_le {q : ℚ} (h : 0 < q) : rne (q / ulp (binadeOf q)) ≤ 2 ^ 24 := by
  have pos := ulp_pos (binadeOf q)
  apply rne_le (by positivity)
  rw [div_le_iff₀ pos]
  exact_mod_cast (lt_ulp_binadeOf q).le

/-- Rounding never leaves a normal binade downwards (R12). -/
theorem le_rne_binadeOf {q : ℚ} (least : 2 ^ 23 * ulp (binadeOf q) ≤ q) : 2 ^ 23 ≤ rne (q / ulp (binadeOf q)) := by
  apply le_rne
  rw [le_div_iff₀ (ulp_pos _)]
  exact_mod_cast least

/-- The three cases of R12 are one formula on the pattern's number: a carry to the next binade is the next number. -/
theorem rne32_toNat {q : ℚ} (h : 0 < q) (hmax : q ≤ (2 ^ 24 - 1) * 2 ^ 104) :
    (rne32 q).toNat = binadeOf q * 2 ^ 23 + rne (q / ulp (binadeOf q)) := by
  have le := rne_binadeOf_le h
  have top := binadeOf_le h hmax
  unfold rne32
  rw [if_neg h.ne']
  dsimp only
  rcases lt_or_ge (Int.log 2 q) (-126) with sub | normal
  · rw [if_pos sub]
    rw [binadeOf_eq_zero sub] at le ⊢
    rw [BitVec.toNat_ofNat, show (2 : ℚ) ^ (-149 : ℤ) = ulp 0 by simp [ulp]]
    omega
  · have least := le_rne_binadeOf (ulp_binadeOf_le h normal)
    have exponent : Int.log 2 q = (binadeOf q : ℤ) - 126 := by unfold binadeOf; omega
    have grid : (2 : ℚ) ^ (Int.log 2 q - 23) = ulp (binadeOf q) := by
      rw [exponent, ulp]
      congr 1
      ring
    rw [if_neg normal.not_gt, grid]
    split_ifs with carry
    all_goals
      rw [normalPattern_toNat (by omega) (by omega) (by omega)]
      omega

theorem rne32_onGrid {q : ℚ} (h : 0 < q) (hmax : q ≤ (2 ^ 24 - 1) * 2 ^ 104) :
    OnGrid (rne32 q) (binadeOf q) (rne (q / ulp (binadeOf q))) := by
  have number := rne32_toNat h hmax
  refine ⟨number, ?_, rne_binadeOf_le h, (binadeOf_eq_zero_or_le h).imp_right le_rne_binadeOf⟩
  have le := rne_binadeOf_le h
  rcases (binadeOf_le h hmax).lt_or_eq with lower | highest
  · omega
  · have noCarry : rne (q / ulp 253) ≤ 2 ^ 24 - 1 := by
      apply rne_le (div_nonneg h.le (ulp_pos _).le)
      rw [div_le_iff₀ (ulp_pos _)]
      refine hmax.trans_eq ?_
      rw [ulp]
      norm_num
    rw [highest] at number
    omega

theorem rne32_zero : rne32 0 = 0x00000000#32 := if_pos rfl

theorem rne32_isRne32 {q : ℚ} (h : 0 ≤ q) (hmax : q ≤ (2 ^ 24 - 1) * 2 ^ 104) : IsRne32 q (rne32 q) := by
  rcases h.eq_or_lt with rfl | pos
  · have zero : OnGrid (rne32 0) 0 0 := by
      rw [rne32_zero]
      exact ⟨rfl, by decide, by decide, .inl rfl⟩
    have noSteps : rne (0 / ulp 0) = 0 := Nat.le_zero.mp (rne_le (by simp) (by simp))
    exact OnGrid.isRne32 le_rfl (noSteps.symm ▸ zero) (.inl rfl)
  · exact (rne32_onGrid pos hmax).isRne32 h (binadeOf_eq_zero_or_le pos)

/-- A value that is a binary32 value already is its own nearest one, and no other pattern has it (R10, R12). -/
theorem rne32_val {x : Word} (h : isFiniteNonneg x = true) : rne32 (val x) = x := by
  have below := (isFiniteNonneg_iff x).mp h
  have sign : signBit x = false := signBit_eq_false_of_lt (by omega)
  obtain ⟨finite, nearest⟩ := rne32_isRne32 (val_nonneg sign) (val_le_maxF h)
  have near := (nearest x h).1
  rw [sub_self, abs_zero] at near
  exact val_inj finite h (sub_eq_zero.mp (abs_nonpos_iff.mp near))

/-- Settles O37: `RNE32` rounds on the grid of the binade of `q`, and every pattern off that grid is further away. -/
theorem rne32IsTheNearestTiesToEven : Obligations.Rne32IsTheNearestTiesToEven :=
  ⟨fun _ h hmax => rne32_isRne32 h hmax, rne32_zero⟩

/-- Settles O38, by O37 and the injectivity of `val` on the non-negative finite patterns. -/
theorem rne32KeepsBinary32Values : Obligations.Rne32KeepsBinary32Values :=
  fun _ h => rne32_val h

end Sys2Proof.Machine
end

section
/-! PROOFS. What one step can do to the registers, said once: they stay, reset restores them, or a taken write has the
effect of its register (10_state.md, 43_host_access.md R140 to R148). Every safety statement of 10_state.md is read off
that list. -/

namespace Sys2Proof.Machine

/-! ### The effect of a taken write -/

/-- What an admitted write of `d` at `off` makes of the registers (R142 to R148). `ignored` stands for the offsets that
take no write and for NOP, neither of which any statement needs to tell apart. -/
inductive WriteEffect (r : Regs) : BitVec 6 → Word → Regs → Prop where
  | ignored {off : BitVec 6} {d : Word} : WriteEffect r off d r
  | rangeStored {d : Word} (legal : legalRange d = true) : WriteEffect r 0x04 d { r with range := d }
  | rangeRejected {d : Word} (illegal : legalRange d = false) :
      WriteEffect r 0x04 d { r with status := setFlags r.status [.rangeErr] }
  | statusCleared {d : Word} : WriteEffect r 0x08 d { r with status := clearFlags r.status d }
  | committed {d : Word} {i : Instr} {c : CmdResult} (decoded : decodeCmd d = .ok i)
      (result : commandResult i r = some c) :
      WriteEffect r 0x0C d
        { r with out0 := c.o0, out1 := c.o1, out2 := c.o2, status := setFlags r.status c.flags }
  | reserved {d : Word} {e : ReservedWord} (rejected : decodeCmd d = .error e) :
      WriteEffect r 0x0C d { r with status := setFlags r.status [.cmdErr] }
  | in0Stored {d : Word} : WriteEffect r 0x10 d { r with in0 := d }
  | in1Stored {d : Word} : WriteEffect r 0x14 d { r with in1 := d }
  | in2Stored {d : Word} : WriteEffect r 0x18 d { r with in2 := d }

/-- A CMD write runs one command or sets CMD_ERR, and leaves the port alone (R144, R145). -/
theorem writeCmd_effect (d : Word) (s : State) :
    ∃ r, WriteEffect s.regs 0x0C d r ∧ writeCmd d s = .next { s with regs := r } := by
  rcases writeCmd_cases d s with ⟨i, decoded, run⟩ | ⟨e, rejected, run⟩
  · rw [run]
    rcases exec_cases i s with ⟨-, nop⟩ | ⟨c, result, commits⟩
    · exact ⟨_, .ignored, nop⟩
    · exact ⟨_, .committed decoded result, commits⟩
  · exact ⟨_, .reserved rejected, run⟩

theorem writeReg_effect (off : BitVec 6) (d : Word) (s : State) :
    ∃ r, WriteEffect s.regs off d r ∧ writeReg off d s = .next { s with regs := r } := by
  have effects := writeReg_cases off d s
  simp only [regAt_eq_some] at effects
  rcases effects with ⟨rfl, run⟩ | ⟨rfl, run⟩ | ⟨rfl, run⟩ | ⟨rfl, run⟩ | ⟨rfl, run⟩ | ⟨rfl, run⟩ | run
  · rcases writeRange_cases d s with ⟨legal, stored⟩ | ⟨illegal, rejected⟩
    · exact ⟨_, .rangeStored legal, run.trans (congrArg _ stored)⟩
    · exact ⟨_, .rangeRejected illegal, run.trans (congrArg _ rejected)⟩
  · exact ⟨_, .statusCleared, run⟩
  · rw [run]
    exact writeCmd_effect d s
  · exact ⟨_, .in0Stored, run⟩
  · exact ⟨_, .in1Stored, run⟩
  · exact ⟨_, .in2Stored, run⟩
  · exact ⟨_, .ignored, run⟩

/-! ### The effect of a step -/

@[simp] theorem AfterTransaction_regs (s : State) (rest : List PortEvent) (a : Reply) (r : Regs) :
    (AfterTransaction s rest a r).regs = r := rfl

@[simp] theorem AfterTransaction_resetLine (s : State) (rest : List PortEvent) (a : Reply) (r : Regs) :
    (AfterTransaction s rest a r).resetLine = s.resetLine := rfl

/-- What a step makes of the state, as far as the registers and the reset input go. -/
inductive StepEffect (s : State) : State → Prop where
  | kept {t : State} (regs : t.regs = s.regs) (line : t.resetLine = true → s.resetLine = true) : StepEffect s t
  | reset {t : State} (next : NextReset s) (regs : t.regs = Regs.reset) : StepEffect s t
  | written {off : BitVec 6} {d : Word} {rest : List PortEvent} {r : Regs} (next : NextWrite s off d rest)
      (effect : WriteEffect s.regs off d r) : StepEffect s (AfterTransaction s rest .written r)

/-- The admission check lets only whole aligned accesses through (R44, R45). -/
theorem admitted_write {off : BitVec 6} {n : Nat} {d : Word} {be : BitVec 4} (h : admitted off (.write n d be) = true) :
    n = 4 ∧ be = 0b1111#4 := by
  simp only [admitted, Bool.and_eq_true, beq_iff_eq] at h
  obtain ⟨⟨size, -⟩, enables⟩ := h
  exact ⟨size, enables⟩

theorem transaction_effect {s t : State} {off : BitVec 6} {a : Access} {rest : List PortEvent}
    (next : NextTransaction s off a rest) (h : step s = .next t) : StepEffect s t := by
  rw [step_nextTransaction next] at h
  cases adm : admitted off a with
  | false =>
    rw [transact_busError adm] at h
    cases h
    exact .kept rfl id
  | true =>
    cases a with
    | read n =>
      rw [transact_read adm] at h
      cases h
      exact .kept rfl id
    | write n d be =>
      obtain ⟨r, effect, run⟩ := writeReg_effect off d (answer .written { s with pending := rest })
      obtain ⟨rfl, rfl⟩ := admitted_write adm
      rw [transact_write adm, run] at h
      cases h
      exact .written next effect

/-- Everything a step can do to the registers. -/
theorem step_effect {s t : State} (h : step s = .next t) : StepEffect s t := by
  cases pending : s.pending with
  | nil =>
    rw [step_idle pending] at h
    cases h
    exact .kept rfl id
  | cons e rest =>
    have run := h
    rw [step_cons pending] at run
    rcases handle_cases e { s with pending := rest } with
      ⟨off, a, line, arrives, -⟩ | ⟨-, untaken⟩ | ⟨event, asserted⟩ | ⟨-, released⟩
    · refine transaction_effect (off := off) (a := a) (rest := rest) ⟨line, ?_⟩ h
      rcases arrives with rfl | ⟨addr, rfl, inside⟩
      · exact .inl pending
      · exact .inr ⟨addr, pending, inside⟩
    · rw [untaken] at run
      cases run
      exact .kept rfl id
    · rw [asserted] at run
      cases run
      refine .reset ⟨rest, ?_⟩ rfl
      rcases event with rfl | rfl
      · exact .inl pending
      · exact .inr pending
    · rw [released] at run
      cases run
      exact .kept rfl (fun line => Bool.noConfusion line)

/-- The registers change only by reset or by the effect of a write that was taken. -/
theorem step_changes {s t : State} (h : step s = .next t) (changed : t.regs ≠ s.regs) :
    NextReset s ∨ ∃ off d rest, NextWrite s off d rest ∧ WriteEffect s.regs off d t.regs := by
  cases step_effect h with
  | kept regs _ => exact absurd regs changed
  | reset next _ => exact .inl next
  | written next effect => exact .inr ⟨_, _, _, next, effect⟩

/-- How the safety statements use `step_changes`: where the change is one that only a write at `target` with `P` makes,
the step was reset or that write. -/
theorem step_changes_only_by {s t : State} {target : BitVec 6} {P : Word → Prop} (h : step s = .next t)
    (changed : t.regs ≠ s.regs)
    (cause : ∀ {off : BitVec 6} {d : Word}, WriteEffect s.regs off d t.regs → off = target ∧ P d) :
    NextReset s ∨ ∃ d rest, NextWrite s target d rest ∧ P d := by
  refine (step_changes h changed).imp_right ?_
  rintro ⟨off, d, rest, next, effect⟩
  obtain ⟨rfl, hP⟩ := cause effect
  exact ⟨d, rest, next, hP⟩

/-! ### RANGE, the inputs and the results -/

theorem WriteEffect.range_changes {r r' : Regs} {off : BitVec 6} {d : Word} (h : WriteEffect r off d r')
    (changed : r'.range ≠ r.range) : off = 0x04 ∧ legalRange d = true ∧ r'.range = d := by
  cases h with
  | rangeStored legal => exact ⟨rfl, legal, rfl⟩
  | _ => exact absurd rfl changed

theorem WriteEffect.in0_changes {r r' : Regs} {off : BitVec 6} {d : Word} (h : WriteEffect r off d r')
    (changed : r'.in0 ≠ r.in0) : off = 0x10 ∧ r'.in0 = d := by
  cases h with
  | in0Stored => exact ⟨rfl, rfl⟩
  | _ => exact absurd rfl changed

theorem WriteEffect.in1_changes {r r' : Regs} {off : BitVec 6} {d : Word} (h : WriteEffect r off d r')
    (changed : r'.in1 ≠ r.in1) : off = 0x14 ∧ r'.in1 = d := by
  cases h with
  | in1Stored => exact ⟨rfl, rfl⟩
  | _ => exact absurd rfl changed

theorem WriteEffect.in2_changes {r r' : Regs} {off : BitVec 6} {d : Word} (h : WriteEffect r off d r')
    (changed : r'.in2 ≠ r.in2) : off = 0x18 ∧ r'.in2 = d := by
  cases h with
  | in2Stored => exact ⟨rfl, rfl⟩
  | _ => exact absurd rfl changed

theorem ne_nop_of_commandResult {i : Instr} {r : Regs} {c : CmdResult} (h : commandResult i r = some c) : i ≠ .nop := by
  rintro rfl
  cases h

theorem WriteEffect.results_change {r r' : Regs} {off : BitVec 6} {d : Word} (h : WriteEffect r off d r')
    (changed : r'.out0 ≠ r.out0 ∨ r'.out1 ≠ r.out1 ∨ r'.out2 ≠ r.out2) :
    off = 0x0C ∧ ∃ i, decodeCmd d = .ok i ∧ i ≠ .nop := by
  cases h with
  | committed decoded result => exact ⟨rfl, _, decoded, ne_nop_of_commandResult result⟩
  | _ => simp at changed

/-- Settles O25: among the effects of a write, only the stored RANGE touches RANGE. -/
theorem rangeChangesOnlyByItsWrite : Obligations.RangeChangesOnlyByItsWrite :=
  fun _ _ h changed =>
    step_changes_only_by h (ne_of_apply_ne Regs.range changed) fun effect => effect.range_changes changed

/-- Settles O26: each input register has one effect of a write that touches it. -/
theorem inputsChangeOnlyByTheirWrites : Obligations.InputsChangeOnlyByTheirWrites :=
  fun _ _ h =>
    ⟨fun changed => step_changes_only_by h (ne_of_apply_ne Regs.in0 changed) fun effect => effect.in0_changes changed,
      fun changed => step_changes_only_by h (ne_of_apply_ne Regs.in1 changed) fun effect => effect.in1_changes changed,
      fun changed => step_changes_only_by h (ne_of_apply_ne Regs.in2 changed) fun effect => effect.in2_changes changed⟩

/-- Settles O27: only a command that commits a result touches OUT0 to OUT2, and NOP commits none. -/
theorem resultsChangeOnlyByCommands : Obligations.ResultsChangeOnlyByCommands := by
  intro s t h changed
  have regs : t.regs ≠ s.regs := fun same => by simp [same] at changed
  refine (step_changes_only_by h regs fun effect => effect.results_change changed).imp_right ?_
  rintro ⟨w, rest, next, i, decoded, command⟩
  exact ⟨w, rest, i, next, decoded, command⟩

/-! ### STATUS falls -/

theorem setFlags_getLsbD_of_true {st : Word} {i : Nat} (h : st.getLsbD i = true) (F : List Flag) :
    (setFlags st F).getLsbD i = true := by
  rw [setFlags_getLsbD, h, Bool.true_or]

theorem WriteEffect.status_falls {r r' : Regs} {off : BitVec 6} {d : Word} {i : Nat} (h : WriteEffect r off d r')
    (set : r.status.getLsbD i = true) (clear : r'.status.getLsbD i = false) :
    off = 0x08 ∧ i < 8 ∧ d.getLsbD i = true := by
  cases h with
  | statusCleared =>
    rw [clearFlags_getLsbD, set] at clear
    exact ⟨rfl, by simpa using clear⟩
  | rangeRejected _ | committed _ _ | reserved _ =>
    exact Bool.noConfusion ((setFlags_getLsbD_of_true set _).symm.trans clear)
  | _ => exact Bool.noConfusion (set.symm.trans clear)

/-- Settles O23: every effect but write-1-to-clear sets bits or leaves STATUS alone. -/
theorem statusBitsAreSticky : Obligations.StatusBitsAreSticky := by
  intro s t i h set clear
  have regs : t.regs ≠ s.regs := fun same => by simp [same, set] at clear
  exact step_changes_only_by h regs fun effect => effect.status_falls set clear

end Sys2Proof.Machine
end

section
/-! PROOFS. Which STATUS bits each command may set, and what it leaves in OUT1 and OUT2 (10_state.md R24, R31,
42_decode.md R124, 60_exceptions.md R161): the sticky bits by cause, the invariant of a sound state, and the state after
reset. -/

namespace Sys2Proof.Machine

/-! ### The flags of a command -/

/-- The sanitiser raises input flags only (R84). -/
theorem bit_lt_of_mem_san_flags {x : Word} {f : Flag} (h : f ∈ (san x).flags) : f.bit < 3 := by
  unfold san at h
  split_ifs at h
  · exact List.mem_singleton.mp h ▸ (by decide : Flag.inNan.bit < 3)
  · exact List.mem_singleton.mp h ▸ (by decide : Flag.inInf.bit < 3)
  · exact absurd h List.not_mem_nil
  · exact List.mem_singleton.mp h ▸ (by decide : Flag.inNeg.bit < 3)
  · exact absurd h List.not_mem_nil

/-- The flags of an encode's three inputs together (R84). -/
theorem bit_lt_of_mem_inputs {x0 x1 x2 : Word} {f : Flag}
    (h : f ∈ (san x0).flags ++ (san x1).flags ++ (san x2).flags) : f.bit < 3 := by
  simp only [List.mem_append] at h
  rcases h with (h | h) | h <;> exact bit_lt_of_mem_san_flags h

theorem eq_of_mem_ite {P : Prop} [Decidable P] {f g : Flag} (h : f ∈ if P then [g] else []) : f = g :=
  List.mem_singleton.mp (List.mem_ite_nil_right.mp h).2

theorem eq_sat_of_mem_sat8_flags {n : Nat} {f : Flag} (h : f ∈ (sat8 n).flags) : f = .sat :=
  eq_of_mem_ite (sat8_flags n ▸ h)

theorem eq_sat_of_mem_ses_flags {M : ℚ} {f : Flag} (h : f ∈ (ses M).flags) : f = .sat := by
  rw [ses_eq] at h
  exact eq_of_mem_ite h

/-- A byte that a channel no larger than the divisor gives needs no saturation (R87, R101). -/
theorem sat8_qt_flags {c M : ℚ} (pos : 0 < M) (le : c ≤ M) : (sat8 (qt (c * (255 / M)))).flags = [] := by
  have bound : c * (255 / M) ≤ (255 : ℕ) := by
    rw [← mul_div_assoc, div_le_iff₀ pos]
    push_cast
    linarith
  rw [sat8_flags]
  exact if_neg (Nat.floor_le_of_le bound).not_gt

theorem encRgbm_flags {x0 x1 x2 range : Word} {f : Flag} (h : f ∈ (encRgbm x0 x1 x2 range).flags) :
    f.bit < 3 ∨ f = .sat := by
  unfold encRgbm at h
  dsimp only at h
  split at h
  · exact .inl (bit_lt_of_mem_inputs h)
  · rcases List.mem_append.mp h with inputs | clamped
    · exact .inl (bit_lt_of_mem_inputs inputs)
    · exact .inr (eq_of_mem_ite clamped)

/-- ENC.RGBD never saturates: every channel, and 1, is at most the divisor `M` (R101). -/
theorem encRgbd_flags {x0 x1 x2 : Word} {f : Flag} (h : f ∈ (encRgbd .trunc x0 x1 x2).flags) : f.bit < 3 := by
  unfold encRgbd at h
  simp only [encodeResult_flags, qd] at h
  set M := max (max (san x0).value 1) (max (san x1).value (san x2).value) with hM
  have one : 1 ≤ M := by simp [hM]
  have pos : 0 < M := by linarith
  have shared : (sat8 (qt (255 / M))).flags = [] := by simpa using sat8_qt_flags pos one
  rw [sat8_qt_flags pos (by simp [hM]), sat8_qt_flags pos (by simp [hM]), sat8_qt_flags pos (by simp [hM]), shared] at h
  simp only [List.append_nil] at h
  exact bit_lt_of_mem_inputs h

theorem encRgbd2_flags {mode : QdMode} {x0 x1 x2 range : Word} {f : Flag}
    (h : f ∈ (encRgbd2 mode x0 x1 x2 range).flags) : f.bit < 3 ∨ f = .sat := by
  unfold encRgbd2 at h
  simp only [encodeResult_flags, List.mem_append] at h
  rcases h with ((((inputs | h) | h) | h) | h)
  · exact .inl (bit_lt_of_mem_inputs (by simpa only [List.mem_append] using inputs))
  all_goals exact .inr (eq_sat_of_mem_sat8_flags h)

theorem encRgbe_flags {x0 x1 x2 : Word} {f : Flag} (h : f ∈ (encRgbe x0 x1 x2).flags) :
    f.bit < 3 ∨ f = .sat ∨ f = .ufl := by
  unfold encRgbe at h
  dsimp only at h
  split at h
  · rcases List.mem_append.mp h with inputs | floored
    · exact .inl (bit_lt_of_mem_inputs inputs)
    · exact .inr (.inr (eq_of_mem_ite floored))
  · simp only [encodeResult_flags, List.mem_append] at h
    rcases h with (((inputs | h) | h) | h) | h
    · exact .inl (bit_lt_of_mem_inputs (by simpa only [List.mem_append] using inputs))
    · exact .inr (.inl (eq_sat_of_mem_ses_flags h))
    all_goals exact .inr (.inl (eq_sat_of_mem_sat8_flags h))

theorem decRgbd_flags {x0 : Word} {f : Flag} (h : f ∈ (decRgbd x0).flags) : f = .zdiv := by
  unfold decRgbd at h
  dsimp only at h
  split at h
  · exact List.mem_singleton.mp h
  · exact absurd h List.not_mem_nil

theorem decRgbd2_flags {x0 range : Word} {f : Flag} (h : f ∈ (decRgbd2 x0 range).flags) : f = .zdiv := by
  unfold decRgbd2 at h
  dsimp only at h
  split at h
  · exact List.mem_singleton.mp h
  · exact absurd h List.not_mem_nil

/-- The table of R24 and R161 for the commands' flags: which command may set STATUS bit `i`. -/
def CommandSetsBit (i : Nat) (c : Instr) : Prop :=
  (i < 3 ∧ c ∈ [Instr.encRgbm, Instr.encRgbd, Instr.encRgbd2, Instr.encRgbe]) ∨
    (i = 3 ∧ c ∈ [Instr.encRgbm, Instr.encRgbd2, Instr.encRgbe]) ∨
    (i = 4 ∧ c ∈ [Instr.decRgbd, Instr.decRgbd2]) ∨ (i = 5 ∧ c = Instr.encRgbe)

theorem commandSetsBit_of_mem_flags {i : Instr} {r : Regs} {c : CmdResult} {f : Flag}
    (h : commandResult i r = some c) (hf : f ∈ c.flags) : CommandSetsBit f.bit i := by
  unfold CommandSetsBit
  cases i <;> cases h
  case encRgbm =>
    rcases encRgbm_flags hf with input | rfl
    · exact .inl ⟨input, by decide⟩
    · exact .inr (.inl ⟨rfl, by decide⟩)
  case encRgbd => exact .inl ⟨encRgbd_flags hf, by decide⟩
  case encRgbd2 =>
    rcases encRgbd2_flags hf with input | rfl
    · exact .inl ⟨input, by decide⟩
    · exact .inr (.inl ⟨rfl, by decide⟩)
  case encRgbe =>
    rcases encRgbe_flags hf with input | rfl | rfl
    · exact .inl ⟨input, by decide⟩
    · exact .inr (.inl ⟨rfl, by decide⟩)
    · exact .inr (.inr (.inr ⟨rfl, rfl⟩))
  case decRgbd =>
    rw [decRgbd_flags hf]
    exact .inr (.inr (.inl ⟨rfl, by decide⟩))
  case decRgbd2 =>
    rw [decRgbd2_flags hf]
    exact .inr (.inr (.inl ⟨rfl, by decide⟩))
  case decRgbm => exact absurd hf List.not_mem_nil
  case decRgbe => exact absurd hf List.not_mem_nil

/-! ### STATUS rises -/

theorem exists_flag_of_setFlags {st : Word} {F : List Flag} {i : Nat} (clear : st.getLsbD i = false)
    (set : (setFlags st F).getLsbD i = true) : ∃ f ∈ F, i = f.bit := by
  rw [setFlags_getLsbD, clear, Bool.false_or, List.any_eq_true] at set
  obtain ⟨f, mem, eq⟩ := set
  exact ⟨f, mem, of_decide_eq_true eq⟩

theorem WriteEffect.status_rises {r r' : Regs} {off : BitVec 6} {d : Word} {i : Nat} (h : WriteEffect r off d r')
    (clear : r.status.getLsbD i = false) (set : r'.status.getLsbD i = true) :
    (i = 6 ∧ off = 0x04 ∧ legalRange d = false) ∨ (i = 7 ∧ off = 0x0C ∧ ∃ e, decodeCmd d = .error e) ∨
      (off = 0x0C ∧ ∃ c, decodeCmd d = .ok c ∧ CommandSetsBit i c) := by
  cases h with
  | rangeRejected illegal =>
    obtain ⟨f, mem, rfl⟩ := exists_flag_of_setFlags clear set
    rw [List.mem_singleton.mp mem]
    exact .inl ⟨rfl, rfl, illegal⟩
  | reserved rejected =>
    obtain ⟨f, mem, rfl⟩ := exists_flag_of_setFlags clear set
    rw [List.mem_singleton.mp mem]
    exact .inr (.inl ⟨rfl, rfl, _, rejected⟩)
  | committed decoded result =>
    obtain ⟨f, mem, rfl⟩ := exists_flag_of_setFlags clear set
    exact .inr (.inr ⟨rfl, _, decoded, commandSetsBit_of_mem_flags result mem⟩)
  | statusCleared => simp [clearFlags_getLsbD, clear] at set
  | _ => exact Bool.noConfusion (clear.symm.trans set)

/-- Reset sets no bit, so a bit that rises was set by a write. -/
theorem status_rises_by_write {s t : State} {i : Nat} (h : step s = .next t) (clear : s.regs.status.getLsbD i = false)
    (set : t.regs.status.getLsbD i = true) :
    ∃ off d rest, NextWrite s off d rest ∧ WriteEffect s.regs off d t.regs := by
  cases step_effect h with
  | kept regs _ => simp [regs, clear] at set
  | reset _ regs => simp [regs] at set
  | written next effect => exact ⟨_, _, _, next, effect⟩

/-- Settles O24: the write that sets the bit is a rejected RANGE, a reserved word, or a command whose flags hold it. -/
theorem statusBitsHaveTheirOwnCause : Obligations.StatusBitsHaveTheirOwnCause := by
  intro s t i h clear set
  obtain ⟨off, d, rest, next, effect⟩ := status_rises_by_write h clear set
  rcases effect.status_rises clear set with ⟨bit, rfl, illegal⟩ | ⟨bit, rfl, e, rejected⟩ | ⟨rfl, c, decoded, sets⟩
  · rw [Bool.eq_false_iff, ne_eq, legalRange_iff] at illegal
    exact .inl ⟨bit, d, rest, next, illegal⟩
  · exact .inr (.inl ⟨bit, d, rest, e, next, rejected⟩)
  · exact .inr (.inr ⟨d, rest, c, next, decoded, sets⟩)

/-! ### The results of a command are finite (R31, R124) -/

theorem isFiniteNonneg_rne32 {q : ℚ} (h : 0 ≤ q) (hmax : q ≤ (2 ^ 24 - 1) * 2 ^ 104) :
    isFiniteNonneg (rne32 q) = true :=
  (rne32_isRne32 h hmax).1

theorem isFiniteNonneg_zero : isFiniteNonneg 0x00000000#32 = true := by decide

theorem isFiniteNonneg_of_legalRange {d : Word} (h : legalRange d = true) : isFiniteNonneg d = true := by
  have bounds := (legalRange_iff d).mp h
  rw [isFiniteNonneg_iff]
  omega

theorem byte_cast_le (b : Byte) : (b.toNat : ℚ) ≤ 255 := by
  have := b.isLt
  exact_mod_cast (by omega : b.toNat ≤ 255)

theorem one_le_byte_cast {b : Byte} (h : b ≠ 0) : (1 : ℚ) ≤ b.toNat := by
  have : b.toNat ≠ 0 := fun zero => h (BitVec.eq_of_toNat_eq zero)
  exact_mod_cast Nat.one_le_iff_ne_zero.mpr this

/-- DEC.RGBM scales `rho` by two fractions of 255 (R120). -/
theorem rgbmChannel_bounds {rho : ℚ} (h : 0 ≤ rho) (b3 b : Byte) :
    0 ≤ rgbmChannel rho b3 b ∧ rgbmChannel rho b3 b ≤ rho := by
  have shared : (b3.toNat : ℚ) / 255 ≤ 1 := (div_le_one (by norm_num)).mpr (byte_cast_le b3)
  have colour : (b.toNat : ℚ) / 255 ≤ 1 := (div_le_one (by norm_num)).mpr (byte_cast_le b)
  have eq : rgbmChannel rho b3 b = (b.toNat / 255) * (b3.toNat / 255) * rho := by
    unfold rgbmChannel
    ring
  rw [eq]
  exact ⟨by positivity, mul_le_of_le_one_left h (mul_le_one₀ colour (by positivity) shared)⟩

/-- DEC.RGBD divides a byte by a byte of at least 1 (R121). -/
theorem rgbdChannel_bounds {b3 : Byte} (h : b3 ≠ 0) (b : Byte) :
    0 ≤ rgbdChannel b3 b ∧ rgbdChannel b3 b ≤ 255 := by
  have shared : (1 : ℚ) / b3.toNat ≤ 1 := div_le_one_of_le₀ (one_le_byte_cast h) (by positivity)
  unfold rgbdChannel
  exact ⟨by positivity, (mul_le_of_le_one_right (by positivity) shared).trans (byte_cast_le b)⟩

/-- DEC.RGBD2 scales `rho` by a fraction of 255 and divides by a byte of at least 1 (R122). -/
theorem rgbd2Channel_bounds {rho : ℚ} (h : 0 ≤ rho) {b3 : Byte} (h3 : b3 ≠ 0) (b : Byte) :
    0 ≤ rgbd2Channel rho b3 b ∧ rgbd2Channel rho b3 b ≤ rho := by
  have one := one_le_byte_cast h3
  have shared : (1 : ℚ) / b3.toNat ≤ 1 := div_le_one_of_le₀ one (by positivity)
  have colour : (b.toNat : ℚ) / 255 ≤ 1 := (div_le_one (by norm_num)).mpr (byte_cast_le b)
  have eq : rgbd2Channel rho b3 b = (b.toNat / 255) * (1 / b3.toNat) * rho := by
    unfold rgbd2Channel
    field_simp
  rw [eq]
  exact ⟨by positivity, mul_le_of_le_one_left h (mul_le_one₀ colour (by positivity) shared)⟩

/-- DEC.RGBE's exponent is at most `255 - 136` (R123). -/
theorem rgbeChannel_bounds (b3 b : Byte) : 0 ≤ rgbeChannel b3 b ∧ rgbeChannel b3 b ≤ 255 * 2 ^ 119 := by
  have lt := b3.isLt
  have scale : (2 : ℚ) ^ ((b3.toNat : ℤ) - Config.decodeBias) ≤ 2 ^ (119 : ℤ) := by
    apply zpow_le_zpow_right₀ (by norm_num)
    unfold Config.decodeBias
    omega
  unfold rgbeChannel
  exact ⟨by positivity, mul_le_mul (byte_cast_le b) scale (by positivity) (by norm_num)⟩

/-- The result keeps what R31 and R124 promise of OUT1 and OUT2. -/
def CmdResult.Finite (c : CmdResult) : Prop := isFiniteNonneg c.o1 = true ∧ isFiniteNonneg c.o2 = true

theorem encodeResult_finite (b0 b1 b2 b3 : Byte) (F : List Flag) : (encodeResult b0 b1 b2 b3 F).Finite :=
  ⟨isFiniteNonneg_zero, isFiniteNonneg_zero⟩

theorem zeroDivisorResult_finite : zeroDivisorResult.Finite := ⟨isFiniteNonneg_zero, isFiniteNonneg_zero⟩

theorem decodeResult_finite {bound r g b : ℚ} {F : List Flag} (hmax : bound ≤ (2 ^ 24 - 1) * 2 ^ 104)
    (hg : 0 ≤ g ∧ g ≤ bound) (hb : 0 ≤ b ∧ b ≤ bound) : (decodeResult r g b F).Finite :=
  ⟨isFiniteNonneg_rne32 hg.1 (hg.2.trans hmax), isFiniteNonneg_rne32 hb.1 (hb.2.trans hmax)⟩

theorem encRgbm_finite (x0 x1 x2 range : Word) : (encRgbm x0 x1 x2 range).Finite := by
  unfold encRgbm
  dsimp only
  split <;> exact encodeResult_finite _ _ _ _ _

theorem encRgbe_finite (x0 x1 x2 : Word) : (encRgbe x0 x1 x2).Finite := by
  unfold encRgbe
  dsimp only
  split <;> exact encodeResult_finite _ _ _ _ _

theorem decRgbm_finite {range : Word} (legal : legalRange range = true) (x0 : Word) : (decRgbm x0 range).Finite :=
  have rho := (val_pos_of_legalRange legal).le
  decodeResult_finite (val_le_maxF (isFiniteNonneg_of_legalRange legal)) (rgbmChannel_bounds rho _ _)
    (rgbmChannel_bounds rho _ _)

theorem decRgbd_finite (x0 : Word) : (decRgbd x0).Finite := by
  unfold decRgbd
  dsimp only
  split_ifs with zero
  · exact zeroDivisorResult_finite
  · exact decodeResult_finite (by norm_num) (rgbdChannel_bounds zero _) (rgbdChannel_bounds zero _)

theorem decRgbd2_finite {range : Word} (legal : legalRange range = true) (x0 : Word) : (decRgbd2 x0 range).Finite := by
  have rho := (val_pos_of_legalRange legal).le
  unfold decRgbd2
  dsimp only
  split_ifs with zero
  · exact zeroDivisorResult_finite
  · exact decodeResult_finite (val_le_maxF (isFiniteNonneg_of_legalRange legal)) (rgbd2Channel_bounds rho zero _)
      (rgbd2Channel_bounds rho zero _)

theorem decRgbe_finite (x0 : Word) : (decRgbe x0).Finite :=
  decodeResult_finite (by norm_num) (rgbeChannel_bounds _ _) (rgbeChannel_bounds _ _)

theorem commandResult_finite {i : Instr} {r : Regs} {c : CmdResult} (legal : legalRange r.range = true)
    (h : commandResult i r = some c) : c.Finite := by
  cases i <;> cases h
  case encRgbm => exact encRgbm_finite _ _ _ _
  case encRgbd => exact encodeResult_finite _ _ _ _ _
  case encRgbd2 => exact encodeResult_finite _ _ _ _ _
  case encRgbe => exact encRgbe_finite _ _ _
  case decRgbm => exact decRgbm_finite legal _
  case decRgbd => exact decRgbd_finite _
  case decRgbd2 => exact decRgbd2_finite legal _
  case decRgbe => exact decRgbe_finite _

/-! ### The reserved bits of STATUS (R24) -/

/-- The bound of `StatusReservedIsZero`, bit by bit. -/
theorem status_lt_iff (st : Word) : st.toNat < 2 ^ 8 ↔ ∀ i, 8 ≤ i → st.getLsbD i = false :=
  ⟨fun lt i le => Nat.testBit_lt_two_pow (lt.trans_le (Nat.pow_le_pow_right (by norm_num) le)),
    Nat.lt_pow_two_of_testBit _⟩

theorem Flag.bit_lt (f : Flag) : f.bit < 8 := by cases f <;> decide

theorem setFlags_lt {st : Word} (h : st.toNat < 2 ^ 8) (F : List Flag) : (setFlags st F).toNat < 2 ^ 8 := by
  rw [status_lt_iff] at h ⊢
  intro i le
  by_contra set
  obtain ⟨f, -, rfl⟩ := exists_flag_of_setFlags (h i le) (Bool.eq_true_of_not_eq_false set)
  exact absurd f.bit_lt le.not_gt

theorem clearFlags_lt {st : Word} (h : st.toNat < 2 ^ 8) (d : Word) : (clearFlags st d).toNat < 2 ^ 8 := by
  rw [status_lt_iff] at h ⊢
  intro i le
  rw [clearFlags_getLsbD, h i le, Bool.false_and]

/-! ### The invariant -/

/-- The part of soundness that speaks of the registers alone. -/
structure Regs.Sound (r : Regs) : Prop where
  range : legalRange r.range = true
  status : r.status.toNat < 2 ^ 8
  out1 : isFiniteNonneg r.out1 = true
  out2 : isFiniteNonneg r.out2 = true

theorem sound_iff (s : State) : s.Sound ↔ s.regs.Sound ∧ ResetHoldsRegisters s :=
  ⟨fun ⟨range, status, ⟨out1, out2⟩, held⟩ => ⟨⟨range, status, out1, out2⟩, held⟩,
    fun ⟨⟨range, status, out1, out2⟩, held⟩ => ⟨range, status, ⟨out1, out2⟩, held⟩⟩

theorem regs_reset_sound : Regs.reset.Sound := ⟨by decide, by decide, by decide, by decide⟩

theorem WriteEffect.sound {r r' : Regs} {off : BitVec 6} {d : Word} (h : WriteEffect r off d r') (sound : r.Sound) :
    r'.Sound := by
  obtain ⟨range, status, out1, out2⟩ := sound
  cases h with
  | rangeStored legal => exact ⟨legal, status, out1, out2⟩
  | rangeRejected _ | reserved _ => exact ⟨range, setFlags_lt status _, out1, out2⟩
  | statusCleared => exact ⟨range, clearFlags_lt status _, out1, out2⟩
  | committed _ result =>
    obtain ⟨finite1, finite2⟩ := commandResult_finite range result
    exact ⟨range, setFlags_lt status _, finite1, finite2⟩
  | _ => exact ⟨range, status, out1, out2⟩

/-- Settles O21: the registers stay as they were, or are those of reset, or are written while reset is released. -/
theorem soundStateStaysSound : Obligations.SoundStateStaysSound := by
  intro s t sound h
  rw [sound_iff] at sound ⊢
  obtain ⟨regsSound, held⟩ := sound
  cases step_effect h with
  | kept regs line => exact ⟨regs ▸ regsSound, fun asserted => regs.trans (held (line asserted))⟩
  | reset _ regs => exact ⟨regs ▸ regs_reset_sound, fun _ => regs⟩
  | written next effect =>
    obtain ⟨released, -⟩ := next
    exact ⟨effect.sound regsSound, fun asserted => Bool.noConfusion (released.symm.trans asserted)⟩

/-- Settles O22: the reset registers are sound, and reset is released. -/
theorem resetStateIsSound : Obligations.ResetStateIsSound :=
  (sound_iff State.reset).mpr ⟨regs_reset_sound, fun _ => rfl⟩

/-! ### The state after reset, the idle step and the placed word -/

/-- Settles O19. -/
theorem resetGivesTheTableOfValues : Obligations.ResetGivesTheTableOfValues := ⟨rfl, rfl, rfl⟩

/-- Settles O17. -/
theorem idleBlockKeepsItsState : Obligations.IdleBlockKeepsItsState := fun _ => step_idle

theorem decodeCmd_of_decodeTableWord {nbits w : Nat} {i : Instr} (h : decodeTableWord nbits w = some i) :
    decodeCmd (BitVec.ofNat 32 (w % 2 ^ nbits)) = .ok i := by
  unfold decodeTableWord at h
  split at h
  · rename_i j decoded
    rw [decoded, Option.some.inj h]
  · cases h

theorem nextWrite_withFetchWord (s : State) (nbits w : Nat) :
    NextWrite (s.withFetchWord nbits w) 0x0C (BitVec.ofNat 32 (w % 2 ^ nbits)) s.pending :=
  ⟨rfl, .inl rfl⟩

/-- Settles O7: the placed word is the next CMD write, and it decodes to the command. -/
theorem placedWordRunsNext : Obligations.PlacedWordRunsNext := by
  intro s nbits w i h
  rw [step_nextCommand (nextWrite_withFetchWord s nbits w), writeCmd_ok (decodeCmd_of_decodeTableWord h)]
  rfl

end Sys2Proof.Machine
end

section
/-! PROOFS. The window and what arrives there (20_memory.md R40 to R53): which accesses are refused, which addresses
reach the block, why a repeated command changes nothing more, and where a packed pixel's bytes stand. -/

namespace Sys2Proof.Machine

/-! ### The admission check (R44, R45) -/

theorem admitted_read_iff (off : BitVec 6) (n : Nat) :
    admitted off (.read n) = true ↔ n = 4 ∧ off.toNat % 4 = 0 := by
  simp [admitted]

theorem admitted_write_iff (off : BitVec 6) (n : Nat) (d : Word) (be : BitVec 4) :
    admitted off (.write n d be) = true ↔ n = 4 ∧ off.toNat % 4 = 0 ∧ be = 0b1111#4 := by
  simp [admitted, and_assoc]

theorem aligned_of_admitted {off : BitVec 6} {a : Access} (h : admitted off a = true) : off.toNat % 4 = 0 := by
  cases a with
  | read n =>
    obtain ⟨-, aligned⟩ := (admitted_read_iff off n).mp h
    exact aligned
  | write n d be =>
    obtain ⟨-, aligned, -⟩ := (admitted_write_iff off n d be).mp h
    exact aligned

/-- Settles O9: each of the three causes fails a conjunct of the admission check, and what is not admitted is answered
with BusError. -/
theorem refusedAccessIsBusErrorOnly : Obligations.RefusedAccessIsBusErrorOnly := by
  intro s off a rest next cause
  have refused : admitted off a = false := by
    rw [← Bool.not_eq_true]
    intro adm
    rcases cause with misaligned | ⟨n, rfl, size⟩ | ⟨n, d, be, rfl, partialWrite⟩
    · exact misaligned (aligned_of_admitted adm)
    · obtain ⟨four, -⟩ := (admitted_read_iff off n).mp adm
      exact size four
    · obtain ⟨four, -, enables⟩ := (admitted_write_iff off n d be).mp adm
      exact partialWrite.elim (· four) (· enables)
  rw [step_nextTransaction next, transact_busError refused]
  rfl

/-! ### The window (R40, R53) -/

theorem base_mod (k : Nat) : Config.base k % 64 = 0 := Nat.mul_mod_right 64 _

/-- The offset within a window is the address's low six bits, because BASE has none of them (R40). -/
theorem ofNat_sub_base {k addr : Nat} (h : Config.base k ≤ addr) :
    BitVec.ofNat 6 (addr - Config.base k) = BitVec.ofNat 6 addr := by
  have aligned := base_mod k
  apply BitVec.eq_of_toNat_eq
  simp only [BitVec.toNat_ofNat]
  omega

theorem windowOffset_inside {k addr : Nat} (h : Config.base k ≤ addr ∧ addr < Config.base k + 64) :
    windowOffset k addr = some (BitVec.ofNat 6 addr) :=
  (windowOffset_eq_some k addr _).mpr ⟨h, (ofNat_sub_base h.left).symm⟩

theorem windowOffset_outside {k addr : Nat} (h : ¬ (Config.base k ≤ addr ∧ addr < Config.base k + 64)) :
    windowOffset k addr = none := by
  rw [Option.eq_none_iff_forall_ne_some]
  intro off offset
  obtain ⟨inside, -⟩ := (windowOffset_eq_some k addr off).mp offset
  exact h inside

theorem handle_atAddress_inside {s : State} {addr : Nat} {off : BitVec 6} (h : windowOffset s.window addr = some off)
    (a : Access) : handle (.atAddress addr a) s = handle (.transaction off a) s := by
  simp [handle, h]

theorem handle_atAddress_outside {s : State} {addr : Nat} (h : windowOffset s.window addr = none) (a : Access) :
    handle (.atAddress addr a) s = .next (answer .unanswered s) := by
  simp [handle, h]

/-- Settles O18: the step decodes the address in the block's own window, and outside it only the record of answers
grows. -/
theorem addressesReachOnlyTheWindow : Obligations.AddressesReachOnlyTheWindow := by
  refine ⟨base_mod, fun s addr a rest pending => ?_⟩
  rw [step_cons pending]
  split
  case isTrue inside =>
    exact handle_atAddress_inside (s := { s with pending := rest }) (windowOffset_inside inside) a
  case isFalse outside =>
    exact handle_atAddress_outside (s := { s with pending := rest }) (windowOffset_outside outside) a

/-! ### Repeating a command (R46) -/

/-- A commit writes none of the registers a command reads (R65, R81). -/
@[simp] theorem commandResult_commit (i : Instr) (r : CmdResult) (s : State) :
    commandResult i (commit r s).regs = commandResult i s.regs := by
  cases i <;> rfl

/-- The results are overwritten with themselves, and the flags are sticky. -/
@[simp] theorem commit_commit (r : CmdResult) (s : State) : commit r (commit r s) = commit r s := by
  simp [commit, setFlags_idem]

theorem exec_of_commandResult {i : Instr} {s : State} {r : CmdResult} (h : commandResult i s.regs = some r) :
    exec i s = .next (commit r s) := by
  rcases exec_cases i s with ⟨rfl, -⟩ | ⟨r', result, run⟩
  · cases h
  · rw [run, Option.some.inj (result.symm.trans h)]

/-- Settles O30: the second run computes the same result, and committing it twice is committing it once. -/
theorem commandsAreIdempotent : Obligations.CommandsAreIdempotent := by
  intro i s
  rcases exec_cases i s with ⟨rfl, run⟩ | ⟨r, result, run⟩
  · exact ⟨s, run, run⟩
  · have again : exec i (commit r s) = .next (commit r (commit r s)) :=
      exec_of_commandResult ((commandResult_commit i r s).trans result)
    exact ⟨commit r s, run, again.trans (congrArg _ (commit_commit r s))⟩

/-! ### Packed pixels (R13, R42) -/

/-- The converse of `unpack_pack`: the four bytes are all of the word. -/
@[simp] theorem pack_unpack (w : Word) : pack (unpack w).b0 (unpack w).b1 (unpack w).b2 (unpack w).b3 = w := by
  apply BitVec.eq_of_toNat_eq
  have lt := w.isLt
  simp only [pack_toNat, unpack, BitVec.extractLsb'_toNat, Nat.shiftRight_eq_div_pow]
  omega

theorem byteOf_pack (b0 b1 b2 b3 : Byte) :
    byteOf (pack b0 b1 b2 b3) 0 = b0.toNat ∧ byteOf (pack b0 b1 b2 b3) 1 = b1.toNat ∧
      byteOf (pack b0 b1 b2 b3) 2 = b2.toNat ∧ byteOf (pack b0 b1 b2 b3) 3 = b3.toNat := by
  have lt0 := b0.isLt
  have lt1 := b1.isLt
  have lt2 := b2.isLt
  have lt3 := b3.isLt
  simp only [byteOf, pack_toNat]
  omega

/-- Settles O42. -/
theorem packedBytesKeepTheirPlaces : Obligations.PackedBytesKeepTheirPlaces :=
  ⟨byteOf_pack, pack_unpack, by decide⟩

end Sys2Proof.Machine
end

section
/-! PROOFS. The command encoding (30_encoding.md R60 to R64): a word is its three fields and loses none of them, the
decoder is the inverse of the encoder on the nine commands, and every other word fails one of the three checks. -/

namespace Sys2Proof

open Sys2Proof.Laws

/-! ### The fields of a word (R60) -/

theorem CmdFields.ext {f g : CmdFields} (op : f.op = g.op) (var : f.var = g.var) (rsv : f.rsv = g.rsv) : f = g :=
  (CmdFields.mk.injEq ..).mpr ⟨op, var, rsv⟩

theorem cmdFields_op_toNat (w : Word) : (cmdFields w).op.toNat = w.toNat % 16 := by
  simp [cmdFields]

theorem cmdFields_var_toNat (w : Word) : (cmdFields w).var.toNat = w.toNat / 16 % 4 := by
  simp [cmdFields, Nat.shiftRight_eq_div_pow]

theorem cmdFields_rsv_toNat (w : Word) : (cmdFields w).rsv.toNat = w.toNat / 64 := by
  have lt := w.isLt
  simp only [cmdFields, BitVec.extractLsb'_toNat, Nat.shiftRight_eq_div_pow]
  omega

theorem cmdFields_op_eq_iff (w : Word) (op : BitVec 4) : (cmdFields w).op = op ↔ w.toNat % 16 = op.toNat := by
  rw [← BitVec.toNat_inj, cmdFields_op_toNat]

theorem cmdFields_var_eq_iff (w : Word) (var : BitVec 2) :
    (cmdFields w).var = var ↔ w.toNat / 16 % 4 = var.toNat := by
  rw [← BitVec.toNat_inj, cmdFields_var_toNat]

/-- A word as a number: RSV counts 64, VAR 16 and OP 1. -/
theorem CmdFields.word_toNat (f : CmdFields) :
    f.word.toNat = 64 * f.rsv.toNat + 16 * f.var.toNat + f.op.toNat := by
  have op_lt := f.op.isLt
  have var_lt := f.var.isLt
  unfold CmdFields.word
  simp only [BitVec.toNat_append]
  rw [← Nat.shiftLeft_add_eq_or_of_lt var_lt, ← Nat.shiftLeft_add_eq_or_of_lt op_lt]
  simp only [Nat.shiftLeft_eq]
  omega

@[simp] theorem word_cmdFields (w : Word) : (cmdFields w).word = w := by
  apply BitVec.eq_of_toNat_eq
  rw [CmdFields.word_toNat, cmdFields_rsv_toNat, cmdFields_var_toNat, cmdFields_op_toNat]
  omega

/-! ### The variant codes (R61) -/

@[simp] theorem code_variantOfCode (v : BitVec 2) : (variantOfCode v).code = v := by
  revert v
  decide

theorem fields_encodeOf (v : Variant) : (Instr.encodeOf v).fields = { op := 1, var := v.code, rsv := 0 } := by
  cases v <;> rfl

theorem fields_decodeOf (v : Variant) : (Instr.decodeOf v).fields = { op := 2, var := v.code, rsv := 0 } := by
  cases v <;> rfl

/-! ### What the decoder answers (R63, R64) -/

/-- The fields of a command are all that decodes to it. -/
theorem fields_of_decodeFields {f : CmdFields} {i : Instr} (h : decodeFields f = .ok i) : f = i.fields := by
  unfold decodeFields at h
  split_ifs at h with reserved isNop plain isEncode isDecode <;> obtain rfl := Except.ok.inj h
  · exact CmdFields.ext isNop plain (not_not.mp reserved)
  · rw [fields_encodeOf, code_variantOfCode]
    exact CmdFields.ext isEncode rfl (not_not.mp reserved)
  · rw [fields_decodeOf, code_variantOfCode]
    exact CmdFields.ext isDecode rfl (not_not.mp reserved)

/-- Which fields the decoder turns away for each reason (R64). -/
def CmdFields.FailsFor (f : CmdFields) : ReservedWord → Prop
  | .rsvSet => f.rsv ≠ 0
  | .opReserved => f.rsv = 0 ∧ f.op ≠ 0 ∧ f.op ≠ 1 ∧ f.op ≠ 2
  | .nopWithVariant => f.rsv = 0 ∧ f.op = 0 ∧ f.var ≠ 0

theorem failsFor_of_decodeFields {f : CmdFields} {e : ReservedWord} (h : decodeFields f = .error e) :
    f.FailsFor e := by
  unfold decodeFields at h
  split_ifs at h with reserved isNop plain isEncode isDecode <;> obtain rfl := Except.error.inj h
  · exact reserved
  · exact ⟨not_not.mp reserved, isNop, plain⟩
  · exact ⟨not_not.mp reserved, isNop, isEncode, isDecode⟩

theorem CmdFields.FailsFor.decodeFields_eq {f : CmdFields} {e : ReservedWord} (h : f.FailsFor e) :
    decodeFields f = .error e := by
  unfold decodeFields
  cases e with
  | rsvSet => exact if_pos h
  | opReserved =>
    obtain ⟨clear, not0, not1, not2⟩ := h
    rw [if_neg (not_not.mpr clear), if_neg not0, if_neg not1, if_neg not2]
  | nopWithVariant =>
    obtain ⟨clear, isNop, variant⟩ := h
    rw [if_neg (not_not.mpr clear), if_pos isNop, if_neg variant]

theorem CmdFields.FailsFor.not_wf {f : CmdFields} {e : ReservedWord} (h : f.FailsFor e) : f.wf ≠ true := by
  simp only [CmdFields.wf, rsvClear, opAssigned, nopPlain, ne_eq, Bool.and_eq_true, Bool.or_eq_true, beq_iff_eq,
    bne_iff_ne]
  rintro ⟨⟨clear, assigned⟩, plain⟩
  cases e with
  | rsvSet => exact h clear
  | opReserved =>
    obtain ⟨-, not0, not1, not2⟩ := h
    rcases assigned with (op | op) | op
    exacts [not0 op, not1 op, not2 op]
  | nopWithVariant =>
    obtain ⟨-, isNop, variant⟩ := h
    exact plain.elim (· isNop) variant

/-- The family `EncodingAgrees`, over all commands. -/
theorem encodingAgrees (i : Instr) : EncodingAgrees.Statement i := by
  cases i with
  | nop => exact EncodingAgrees.nop
  | encRgbm => exact EncodingAgrees.encRgbm
  | encRgbd => exact EncodingAgrees.encRgbd
  | encRgbd2 => exact EncodingAgrees.encRgbd2
  | encRgbe => exact EncodingAgrees.encRgbe
  | decRgbm => exact EncodingAgrees.decRgbm
  | decRgbd => exact EncodingAgrees.decRgbd
  | decRgbd2 => exact EncodingAgrees.decRgbd2
  | decRgbe => exact EncodingAgrees.decRgbe

@[simp] theorem decodeCmd_encode (i : Instr) : decodeCmd (encode i) = .ok i := by
  obtain ⟨-, -, decoded⟩ := encodingAgrees i
  exact decoded

/-- The decoder and the encoder are inverse to each other: a word that decodes has the fields of its command, and its
fields are all of it. -/
theorem decodeCmd_eq_ok_iff (w : Word) (i : Instr) : decodeCmd w = .ok i ↔ w = encode i := by
  constructor
  · intro decoded
    calc w = (cmdFields w).word := (word_cmdFields w).symm
      _ = encode i := congrArg CmdFields.word (fields_of_decodeFields decoded)
  · rintro rfl
    exact decodeCmd_encode i

theorem decodeCmd_eq_error_iff (w : Word) (e : ReservedWord) :
    decodeCmd w = .error e ↔ (cmdFields w).FailsFor e :=
  ⟨failsFor_of_decodeFields, CmdFields.FailsFor.decodeFields_eq⟩

/-- Settles O2. -/
theorem decodeAndEncodeAgree : Obligations.DecodeAndEncodeAgree :=
  fun w i _ => decodeCmd_eq_ok_iff w i

/-! ### The nine words (R63) -/

/-- The rows of the opcode map: each word with its command. -/
def opcodeMap : List (Word × Instr) :=
  [(0x00000000#32, .nop),
    (0x00000001#32, .encRgbm), (0x00000011#32, .encRgbd), (0x00000021#32, .encRgbd2), (0x00000031#32, .encRgbe),
    (0x00000002#32, .decRgbm), (0x00000012#32, .decRgbd), (0x00000022#32, .decRgbd2), (0x00000032#32, .decRgbe)]

/-- The opcode map is the graph of the encoder. -/
theorem mem_opcodeMap_iff (w : Word) (i : Instr) : (w, i) ∈ opcodeMap ↔ w = encode i := by
  have rows : ∀ row ∈ opcodeMap, row.1 = encode row.2 := by decide
  constructor
  · exact rows (w, i)
  · rintro rfl
    cases i <;> decide

/-- Settles O1: the words that decode are the encoder's, and those are the rows of the map. -/
theorem decodeAcceptsExactlyTheNineWords : Obligations.DecodeAcceptsExactlyTheNineWords :=
  fun w i => (decodeCmd_eq_ok_iff w i).trans (mem_opcodeMap_iff w i).symm

/-- Settles O4: a word with well-formed fields fails none of the decoder's checks. -/
theorem commandFieldsDecideTheWord : Obligations.CommandFieldsDecideTheWord := by
  refine fun w => ⟨⟨?_, fun wf => ?_⟩, word_cmdFields w⟩
  · rintro ⟨i, decoded⟩
    obtain rfl := (decodeCmd_eq_ok_iff w i).mp decoded
    obtain ⟨-, wf, -⟩ := encodingAgrees i
    exact wf
  · cases answer : decodeCmd w with
    | ok i => exact ⟨i, rfl⟩
    | error e => exact absurd wf ((decodeCmd_eq_error_iff w e).mp answer).not_wf

/-! ### The reserved words (R64) -/

theorem failsFor_rsvSet_iff (w : Word) : (cmdFields w).FailsFor .rsvSet ↔ 64 ≤ w.toNat :=
  (cmdFields_rsv_eq_zero w).not.trans not_lt

theorem failsFor_nopWithVariant_iff (w : Word) :
    (cmdFields w).FailsFor .nopWithVariant ↔ w = 0x10#32 ∨ w = 0x20#32 ∨ w = 0x30#32 := by
  simp only [CmdFields.FailsFor, ne_eq, cmdFields_rsv_eq_zero, cmdFields_op_eq_iff, cmdFields_var_eq_iff,
    ← BitVec.toNat_inj (x := w)]
  simp only [BitVec.ofNat_eq_ofNat, BitVec.toNat_ofNat]
  omega

theorem failsFor_opReserved_iff (w : Word) :
    (cmdFields w).FailsFor .opReserved ↔ w.toNat < 64 ∧ 3 ≤ w.toNat % 16 := by
  simp only [CmdFields.FailsFor, ne_eq, cmdFields_rsv_eq_zero, cmdFields_op_eq_iff]
  simp only [BitVec.ofNat_eq_ofNat, BitVec.toNat_ofNat]
  omega

/-- Settles O3: each reason is a check on the fields, and the fields are digits of the word. -/
theorem reservedWordsNameTheirReason : Obligations.ReservedWordsNameTheirReason := fun w =>
  ⟨(decodeCmd_eq_error_iff w _).trans (failsFor_rsvSet_iff w),
    (decodeCmd_eq_error_iff w _).trans (failsFor_nopWithVariant_iff w),
    (decodeCmd_eq_error_iff w _).trans (failsFor_opReserved_iff w)⟩

/-! ### The opcode table's words -/

theorem decodeTableWord_encode (i : Instr) : decodeTableWord 32 (encode i).toNat = some i := by
  have word : BitVec.ofNat 32 ((encode i).toNat % 2 ^ 32) = encode i := by
    rw [Nat.mod_eq_of_lt (encode i).isLt, BitVec.ofNat_toNat, BitVec.setWidth_eq]
  simp only [decodeTableWord, word, decodeCmd_encode]

theorem decodeTableWord_of_reserved {n : Nat} (lo : 64 ≤ n) (hi : n < 2 ^ 32) : decodeTableWord 32 n = none := by
  have reserved : 64 ≤ (BitVec.ofNat 32 (n % 2 ^ 32)).toNat := by
    rw [BitVec.toNat_ofNat]
    omega
  simp only [decodeTableWord, decodeCmd_of_ge reserved]

/-- Settles O5. -/
theorem tableWordsDecode : Obligations.TableWordsDecode :=
  ⟨decodeTableWord_encode .nop, decodeTableWord_encode .encRgbd2, decodeTableWord_encode .encRgbe,
    decodeTableWord_encode .decRgbd, decodeTableWord_of_reserved (by norm_num) (by norm_num)⟩

end Sys2Proof
end

section
/-! PROOFS. The operands of a command (30_encoding.md R65) and the host's assembly for it (R66, R67). -/

namespace Sys2Proof.Machine

/-! ### The operands (R65) -/

/-- A command's result is a function of the registers R65 lists for it. -/
theorem commandResult_congr {i : Instr} {r r' : Regs} (in0 : r.in0 = r'.in0)
    (inputs : i ∈ [Instr.decRgbm, Instr.decRgbd, Instr.decRgbd2, Instr.decRgbe] ∨ (r.in1 = r'.in1 ∧ r.in2 = r'.in2))
    (range : i ∈ [Instr.encRgbd, Instr.encRgbe, Instr.decRgbd, Instr.decRgbe] ∨ r.range = r'.range) :
    commandResult i r = commandResult i r' := by
  cases i
  case nop => rfl
  case decRgbd | decRgbe => simp only [commandResult, in0]
  case decRgbm | decRgbd2 => simp only [commandResult, in0, range.resolve_left (by decide)]
  case encRgbd | encRgbe =>
    obtain ⟨in1, in2⟩ := inputs.resolve_left (by decide)
    simp only [commandResult, in0, in1, in2]
  case encRgbm | encRgbd2 =>
    obtain ⟨in1, in2⟩ := inputs.resolve_left (by decide)
    simp only [commandResult, in0, in1, in2, range.resolve_left (by decide)]

theorem CommandSetsBit.lt {i : Nat} {c : Instr} (h : CommandSetsBit i c) : i < 6 := by
  rcases h with ⟨lt, -⟩ | ⟨rfl, -⟩ | ⟨rfl, -⟩ | ⟨rfl, -⟩ <;> omega

/-- The STATUS bits a command sets are among bits 0 to 5: RANGE_ERR and CMD_ERR are no command's (R24). -/
theorem setFlags_zero_lt_of_commandResult {i : Instr} {r : Regs} {c : CmdResult} (h : commandResult i r = some c) :
    (setFlags 0 c.flags).toNat < 2 ^ 6 := by
  refine Nat.lt_pow_two_of_testBit _ fun k le => Bool.eq_false_iff.mpr fun set => ?_
  obtain ⟨f, mem, rfl⟩ := exists_flag_of_setFlags (BitVec.getLsbD_zero) set
  exact (commandSetsBit_of_mem_flags h mem).lt.not_ge le

theorem exists_commandResult {i : Instr} (h : i ≠ .nop) (r : Regs) : ∃ c, commandResult i r = some c := by
  cases i
  case nop => exact absurd rfl h
  all_goals exact ⟨_, rfl⟩

/-- Settles O29: both states commit the same result, whose flags are ORed into STATUS. -/
theorem commandsDependOnlyOnTheirOperands : Obligations.CommandsDependOnlyOnTheirOperands := by
  intro i s s' command in0 inputs range
  obtain ⟨c, result⟩ := exists_commandResult command s.regs
  have result' : commandResult i s'.regs = some c := (commandResult_congr in0 inputs range).symm.trans result
  exact ⟨commit c s, commit c s', setFlags 0 c.flags, exec_of_commandResult result, exec_of_commandResult result',
    rfl, rfl, rfl, setFlags_eq_or _ _, setFlags_eq_or _ _, setFlags_zero_lt_of_commandResult result⟩

/-! ### The pseudo-instructions (R67) -/

/-- Settles O58: a word operand always has its word, so every line expands. -/
theorem pseudoInstructionsExpand : Obligations.PseudoInstructionsExpand :=
  fun _ _ _ _ => ⟨rfl, rfl, rfl, rfl, rfl⟩

/-! ### The mnemonics (R66) -/

theorem disassemble_of_ok {w : Word} {i : Instr} (h : decodeCmd w = .ok i) : disassemble w = mnemonicOf i := by
  simp only [disassemble, h]

theorem disassemble_of_error {w : Word} {e : ReservedWord} (h : decodeCmd w = .error e) :
    disassemble w = ".word " ++ hexWord w := by
  simp only [disassemble, h]

theorem parseMnemonic_mnemonicOf (i : Instr) : parseMnemonic (mnemonicOf i) = some i := by
  cases i <;> decide

/-- Settles O59: a command's word decodes to it, and the disassembler prints what the decoder answers. -/
theorem mnemonicsNameTheirCommands : Obligations.MnemonicsNameTheirCommands :=
  ⟨fun i => ⟨disassemble_of_ok (decodeCmd_encode i), parseMnemonic_mnemonicOf i⟩, fun _ _ => disassemble_of_error⟩

end Sys2Proof.Machine
end

section
/-! PROOFS. The datapath units (40_datapath_units.md R84 to R91): what the sanitiser does to each class of pattern,
where the floor threshold lies among the patterns, which exponents the scaler meets, how far the byte quantizers move
their argument, and the bytes of ENC.RGBD and ENC.RGBD2 for either `QD_MODE`. -/

namespace Sys2Proof.Machine

/-! ### The sanitiser (R84) -/

theorem san_of_nan {x : Word} (h : 0x7F800000 < x.toNat % 2 ^ 31) : san x = { value := 0, flags := [.inNan] } :=
  if_pos ((isNaN_iff x).mpr h)

theorem san_posInf : san 0x7F800000#32 = { value := (2 ^ 24 - 1) * 2 ^ 104, flags := [.inInf] } :=
  val_maxF ▸ rfl

theorem san_negZero : san 0x80000000#32 = { value := 0, flags := [] } := rfl

theorem san_of_negative {x : Word} (lo : 0x80000000 < x.toNat) (hi : x.toNat ≤ 0xFF800000) :
    san x = { value := 0, flags := [.inNeg] } := by
  have number : ¬ isNaN x = true := by rw [isNaN_iff]; omega
  have sign : signBit x = true := by rw [signBit_iff]; omega
  have notZero : x ≠ 0x80000000#32 := by
    rintro rfl
    exact absurd lo (by decide)
  simp [san, number, sign, notZero]

theorem san_of_finiteNonneg {x : Word} (h : isFiniteNonneg x = true) : san x = { value := val x, flags := [] } := by
  rw [isFiniteNonneg_iff] at h
  have number : ¬ isNaN x = true := by rw [isNaN_iff]; omega
  have finite : ¬ isInf x = true := by rw [isInf_iff]; omega
  have sign : signBit x = false := signBit_eq_false_of_lt (by omega)
  simp [san, number, finite, sign]

/-- Settles O33, class by class. -/
theorem sanitiserTreatsEachClass : Obligations.SanitiserTreatsEachClass := by
  refine fun x => ⟨san_of_nan, fun inf => ?_, fun zero => ?_, fun ⟨lo, hi⟩ => san_of_negative lo hi,
    fun h => san_of_finiteNonneg ((isFiniteNonneg_iff x).mpr h)⟩
  · obtain rfl : x = 0x7F800000#32 := BitVec.eq_of_toNat_eq inf
    exact san_posInf
  · obtain rfl : x = 0x80000000#32 := BitVec.eq_of_toNat_eq zero
    exact san_negZero

/-- The classes of R84 are all the patterns, so these are all the values: 0, MAXF, and those of the finite patterns. -/
theorem san_value_cases (x : Word) :
    (san x).value = 0 ∨ (san x).value = (2 ^ 24 - 1) * 2 ^ 104 ∨
      isFiniteNonneg x = true ∧ (san x).value = val x := by
  obtain ⟨nan, posInf, negZero, negative, finite⟩ := sanitiserTreatsEachClass x
  have word := x.isLt
  by_cases isNan : 0x7F800000 < x.toNat % 2 ^ 31
  · exact .inl (by rw [nan isNan])
  rcases lt_trichotomy x.toNat 0x7F800000 with below | inf | above
  · exact .inr (.inr ⟨(isFiniteNonneg_iff x).mpr below, by rw [finite below]⟩)
  · exact .inr (.inl (by rw [posInf inf]))
  rcases Nat.eq_or_lt_of_le (show 0x80000000 ≤ x.toNat by omega) with zero | neg
  · exact .inl (by rw [negZero zero.symm])
  · exact .inl (by rw [negative ⟨neg, by omega⟩])

theorem san_value_le_maxF (x : Word) : (san x).value ≤ (2 ^ 24 - 1) * 2 ^ 104 := by
  rcases san_value_cases x with zero | top | ⟨finite, value⟩
  · rw [zero]
    norm_num
  · exact top.le
  · exact value ▸ val_le_maxF finite

/-- Settles O34. -/
theorem sanitisedValueIsBounded : Obligations.SanitisedValueIsBounded :=
  fun x => ⟨san_value_nonneg x, san_value_le_maxF x⟩

/-! ### The floor threshold (R91) -/

theorem le_val_floorPattern : 1 / 10 ^ 32 ≤ val 0x0A4FB11F#32 := by
  have grid : OnGrid 0x0A4FB11F#32 19 0xCFB11F := ⟨rfl, by decide, by decide, .inr (by decide)⟩
  rw [grid.val_eq, ulp]
  norm_num

theorem val_before_floorPattern_lt : val 0x0A4FB11E#32 < 1 / 10 ^ 32 := by
  have grid : OnGrid 0x0A4FB11E#32 19 0xCFB11E := ⟨rfl, by decide, by decide, .inr (by decide)⟩
  rw [grid.val_eq, ulp]
  norm_num

/-- Settles O36: the values grow with the patterns, and 10^-32 lies between those of two neighbours. -/
theorem floorThresholdIsAPatternBoundary : Obligations.FloorThresholdIsAPatternBoundary := by
  intro x finite
  have fromFloor := val_lt_iff finite (y := 0x0A4FB11F#32) (by decide)
  have aboveBefore := val_lt_iff (x := 0x0A4FB11E#32) (by decide) finite
  constructor
  · exact fun below => fromFloor.mp (below.trans_le le_val_floorPattern)
  · intro below
    have upTo : val x ≤ val 0x0A4FB11E#32 := by
      rw [← not_lt, aboveBefore]
      exact not_lt.mpr (Nat.le_of_lt_succ below)
    exact upTo.trans_lt val_before_floorPattern_lt

/-! ### The mantissa and the exponent (R89, R90) -/

theorem frexp_m_eq (M : ℚ) : (frexp M).m = M / 2 ^ (frexp M).e := rfl

/-- Settles O39: a mantissa in `[1/2, 1)` puts `M` into the binade of its exponent, and `M` lies in one binade only. -/
theorem frexpGivesTheUniquePair : Obligations.FrexpGivesTheUniquePair := by
  intro M pos m e
  constructor
  · rintro ⟨rfl, half, one⟩
    have scale : (0 : ℚ) < 2 ^ e := by positivity
    have previous : (2 : ℚ) ^ (e - 1) = 1 / 2 * 2 ^ e := by
      rw [zpow_sub_one₀ (by norm_num)]
      ring
    have exponent : (frexp (m * 2 ^ e)).e = e :=
      frexp_e_eq pos (previous ▸ mul_le_mul_of_nonneg_right half scale.le) (mul_lt_of_lt_one_left scale one)
    exact ⟨by rw [frexp_m_eq, exponent, mul_div_cancel_right₀ _ scale.ne'], exponent.symm⟩
  · rintro ⟨rfl, rfl⟩
    exact frexp_spec pos

theorem frexp_e_bounds {M : ℚ} (lo : 1 / 10 ^ 32 ≤ M) (hi : M ≤ (2 ^ 24 - 1) * 2 ^ 104) :
    -106 ≤ (frexp M).e ∧ (frexp M).e ≤ 128 := by
  have pos : 0 < M := lt_of_lt_of_le (by norm_num) lo
  have bottom : ((2 : ℕ) : ℚ) ^ (-107 : ℤ) ≤ M := le_trans (by norm_num) lo
  have top : M < ((2 : ℕ) : ℚ) ^ (128 : ℤ) := hi.trans_lt (by norm_num)
  have above := (Int.zpow_le_iff_le_log (by norm_num) pos).mp bottom
  have below := (Int.lt_zpow_iff_log_lt (by norm_num) pos).mp top
  simp only [frexp]
  omega

theorem ses_e_bounds {M : ℚ} (lo : 1 / 10 ^ 32 ≤ M) (hi : M ≤ (2 ^ 24 - 1) * 2 ^ 104) :
    -106 ≤ (ses M).e ∧ (ses M).e ≤ 127 := by
  obtain ⟨above, -⟩ := frexp_e_bounds lo hi
  rw [ses_eq]
  exact ⟨le_min above (by norm_num), min_le_right _ _⟩

theorem encodeResult_sharedByte (b0 b1 b2 b3 : Byte) (F : List Flag) :
    byteOf (encodeResult b0 b1 b2 b3 F).o0 3 = b3.toNat := by
  obtain ⟨-, -, -, shared⟩ := byteOf_pack b0 b1 b2 b3
  exact shared

/-- ENC.RGBE's pixel is 0 below the floor, and from it on holds a shared byte of at least 22 (R90, R103). -/
theorem encRgbe_sharedByte (x0 x1 x2 : Word) :
    (encRgbe x0 x1 x2).o0 = 0 ∨ 22 ≤ byteOf (encRgbe x0 x1 x2).o0 3 := by
  unfold encRgbe
  dsimp only
  split
  case isTrue => exact .inl rfl
  case isFalse notFloored =>
    obtain ⟨lo, hi⟩ := ses_e_bounds (le_of_not_gt (a := Config.tFloor) notFloored)
      (max_le (san_value_le_maxF x0) (max_le (san_value_le_maxF x1) (san_value_le_maxF x2)))
    have bias : Config.encodeBias = 128 := rfl
    rw [encodeResult_sharedByte, byte_toNat (by omega)]
    exact .inr (by omega)

/-- Settles O40: the scaler's exponent stays in range for every sanitised channel at or above the floor. -/
theorem sharedExponentStaysInRange : Obligations.SharedExponentStaysInRange := by
  refine ⟨fun M lo hi => ?_, fun s => ⟨_, exec_encRgbe s, encRgbe_sharedByte _ _ _⟩⟩
  obtain ⟨above, below⟩ := frexp_e_bounds lo hi
  exact ⟨above, below, ses_e_bounds lo hi⟩

/-! ### The byte quantizers (R85, R86) -/

theorem qd_mono (mode : QdMode) {p q : ℚ} (h : p ≤ q) : qd mode p ≤ qd mode q := by
  cases mode with
  | trunc => exact Nat.floor_mono h
  | roundHalfAway => exact Nat.floor_mono (add_le_add_left h _)

@[simp] theorem qr_natCast (n : ℕ) : qr n = n :=
  (Nat.floor_eq_iff (by positivity)).mpr ⟨by linarith, by linarith⟩

@[simp] theorem qd_natCast (mode : QdMode) (n : ℕ) : qd mode n = n := by
  cases mode with
  | trunc => exact Nat.floor_natCast n
  | roundHalfAway => exact qr_natCast n

theorem qd_le (mode : QdMode) {q : ℚ} {n : ℕ} (h : q ≤ n) : qd mode q ≤ n :=
  (qd_mono mode h).trans_eq (qd_natCast mode n)

theorem qr_error {q : ℚ} (h : 0 ≤ q) : |(qr q : ℚ) - q| ≤ 1 / 2 := by
  have below : (qr q : ℚ) ≤ q + 1 / 2 := Nat.floor_le (by linarith)
  have above : q + 1 / 2 < qr q + 1 := Nat.lt_floor_add_one _
  rw [abs_le]
  constructor <;> linarith

theorem crq_eq_of_le {c s : ℚ} (pos : 0 < s) (h : s ≤ c) : crq c s = 255 := by
  have clamped : min (c / s) 1 = 1 := min_eq_right ((one_le_div pos).mpr h)
  rw [crq, clamped, mul_one]
  exact qr_natCast 255

theorem crq_eq_of_ge {c s : ℚ} (pos : 0 < s) (h : c ≤ s) : crq c s = qr (255 * c / s) := by
  rw [crq, min_eq_left ((div_le_one pos).mpr h), mul_div_assoc]

/-- Settles O41: up to ratio 1 nothing is clamped, and rounding moves its argument by at most 1/2. -/
theorem clampedRatioStaysInAByte : Obligations.ClampedRatioStaysInAByte := by
  intro c s nonneg pos
  refine ⟨Int.natCast_floor_eq_floor (by positivity), crq_le c s, crq_eq_of_le pos, fun h => ?_⟩
  rw [crq_eq_of_ge pos h]
  exact qr_error (by positivity)

/-! ### The bytes of ENC.RGBD and ENC.RGBD2 in either mode (R85, R101, R102) -/

/-- The divisor `M` of R101 and R102: the largest sanitised channel, at least 1. -/
def largestFromOne (x0 x1 x2 : Word) : ℚ := max 1 (max (san x0).value (max (san x1).value (san x2).value))

/-- The shared byte `Dq` of R102. -/
def rgbd2Shared (rho M : ℚ) : ℕ := min ⌊max (rho / M) 1⌋₊ 255

section
variable (x0 x1 x2 : Word)

theorem largestFromOne_eq :
    max (max (san x0).value 1) (max (san x1).value (san x2).value) = largestFromOne x0 x1 x2 := by
  rw [largestFromOne, max_comm (san x0).value 1, max_assoc]

theorem one_le_largestFromOne : 1 ≤ largestFromOne x0 x1 x2 := le_max_left _ _

theorem largestFromOne_pos : 0 < largestFromOne x0 x1 x2 := one_pos.trans_le (one_le_largestFromOne x0 x1 x2)

theorem le_largestFromOne :
    (san x0).value ≤ largestFromOne x0 x1 x2 ∧ (san x1).value ≤ largestFromOne x0 x1 x2 ∧
      (san x2).value ≤ largestFromOne x0 x1 x2 := by
  simp [largestFromOne]

end

/-- A channel no larger than the divisor gives a byte (R101). -/
theorem qd_ratio_le (mode : QdMode) {c M : ℚ} (pos : 0 < M) (h : c ≤ M) : qd mode (255 * c / M) ≤ 255 := by
  apply qd_le
  rw [div_le_iff₀ pos]
  push_cast
  linarith

theorem sat8_of_le {n : ℕ} (h : n ≤ 255) : sat8 n = { value := n, flags := [] } := if_neg (not_lt.mpr h)

/-- ENC.RGBD in either mode (R101): no byte is saturated, so the input flags are all. -/
theorem encRgbd_eq (mode : QdMode) (x0 x1 x2 : Word) :
    let M := largestFromOne x0 x1 x2
    encRgbd mode x0 x1 x2 =
      encodeResult (byte (qd mode (255 * (san x0).value / M))) (byte (qd mode (255 * (san x1).value / M)))
        (byte (qd mode (255 * (san x2).value / M))) (byte (qd mode (255 / M)))
        ((san x0).flags ++ (san x1).flags ++ (san x2).flags) := by
  intro M
  have pos : 0 < M := largestFromOne_pos x0 x1 x2
  obtain ⟨red, green, blue⟩ := le_largestFromOne x0 x1 x2
  have colour (c : ℚ) (h : c ≤ M) :
      sat8 (qd mode (c * (255 / M))) = { value := qd mode (255 * c / M), flags := [] } := by
    rw [← mul_div_assoc, mul_comm c]
    exact sat8_of_le (qd_ratio_le mode pos h)
  have shared : sat8 (qd mode (255 / M)) = { value := qd mode (255 / M), flags := [] } := by
    simpa using colour 1 (one_le_largestFromOne x0 x1 x2)
  simp only [encRgbd, largestFromOne_eq, colour _ red, colour _ green, colour _ blue, shared, List.append_nil, M]

/-- The scale `D` of R102 is the shared byte over 255. -/
theorem rgbd2Shared_div (rho M : ℚ) : min ((⌊max (rho / M) 1⌋₊ : ℚ) / 255) 1 = (rgbd2Shared rho M : ℚ) / 255 := by
  rw [rgbd2Shared, Nat.cast_min, ← min_div_div_right (by norm_num)]
  norm_num

/-- ENC.RGBD2 in either mode (R102): the shared byte is an integer already, and only the colour bytes can saturate. -/
theorem encRgbd2_eq (mode : QdMode) (x0 x1 x2 range : Word) :
    let Dq := rgbd2Shared (val range) (largestFromOne x0 x1 x2)
    let level := fun x : Word => sat8 (qd mode (255 * (san x).value * Dq / val range))
    encRgbd2 mode x0 x1 x2 range =
      encodeResult (byte (level x0).value) (byte (level x1).value) (byte (level x2).value) (byte Dq)
        ((san x0).flags ++ (san x1).flags ++ (san x2).flags ++
          (level x0).flags ++ (level x1).flags ++ (level x2).flags) := by
  intro Dq level
  have colour (c : ℚ) : 255 * c * ((Dq : ℚ) / 255 * (255 / val range)) = 255 * c * Dq / val range := by ring
  have shared : sat8 (qd mode (255 * ((Dq : ℚ) / 255))) = { value := Dq, flags := [] } := by
    rw [mul_div_cancel₀ _ (by norm_num), qd_natCast]
    exact sat8_of_le (min_le_right _ _)
  simp only [encRgbd2, largestFromOne_eq, rgbd2Shared_div, colour, shared, List.append_nil, Dq, level]

theorem sat_not_mem_inputs (x0 x1 x2 : Word) : Flag.sat ∉ (san x0).flags ++ (san x1).flags ++ (san x2).flags :=
  fun mem => absurd (bit_lt_of_mem_inputs mem) (by decide)

/-- Settles O48: both encodes in either mode, read at the rounding one. -/
theorem roundedModeRoundsTheSameBytes : Obligations.RoundedModeRoundsTheSameBytes := by
  intro x0 x1 x2
  have pos := largestFromOne_pos x0 x1 x2
  obtain ⟨red, green, blue⟩ := le_largestFromOne x0 x1 x2
  have shared := qd_ratio_le .roundHalfAway pos (one_le_largestFromOne x0 x1 x2)
  rw [mul_one] at shared
  refine ⟨⟨qd_ratio_le .roundHalfAway pos red, qd_ratio_le .roundHalfAway pos green,
    qd_ratio_le .roundHalfAway pos blue, shared⟩, ?_, ?_, fun range _ => ?_⟩
  · rw [encRgbd_eq]
    rfl
  · rw [encRgbd_eq]
    exact sat_not_mem_inputs x0 x1 x2
  · rw [encRgbd2_eq]
    simp only [encodeResult_o0, sat8_value]
    rfl

end Sys2Proof.Machine
end

section
/-! PROOFS. What each encode command commits (41_encode.md R100 to R104): its four bytes and the STATUS bits it adds,
one equation per command, and the statements read off these equations. -/

namespace Sys2Proof.Machine

/-! ### The frame of a command (R104, R124) -/

/-- What an encode commits is an encode's result, its colour bytes one function of the three channels (R104). -/
theorem commandResult_of_encode {i : Instr} (h : i ∈ [Instr.encRgbm, Instr.encRgbd, Instr.encRgbd2, Instr.encRgbe])
    (r : Regs) : ∃ (colour : Word → Byte) (b3 : Byte) (F : List Flag),
      commandResult i r = some (encodeResult (colour r.in0) (colour r.in1) (colour r.in2) b3 F) := by
  simp only [List.mem_cons, List.not_mem_nil, or_false] at h
  rcases h with rfl | rfl | rfl | rfl
  · simp only [commandResult, encRgbm]
    split
    · exact ⟨fun _ => 0, _, _, rfl⟩
    · exact ⟨fun x => byte (crq ((san x).value / val r.range) _), _, _, rfl⟩
  · exact ⟨fun x => byte (sat8 (qd _ ((san x).value * _))).value, _, _, rfl⟩
  · exact ⟨fun x => byte (sat8 (qd _ (255 * (san x).value * _))).value, _, _, rfl⟩
  · simp only [commandResult, encRgbe]
    split
    · exact ⟨fun _ => 0, _, _, rfl⟩
    · exact ⟨fun x => byte (sat8 (qt ((san x).value * _))).value, _, _, rfl⟩

/-- A read of any register a commit does not write gives what it gave before (R81, R141). -/
theorem readReg_commit {off : BitVec 6} (h : off ∉ [0x08#6, 0x1C#6, 0x20#6, 0x24#6]) (r : CmdResult) (s : State) :
    readReg (commit r s).regs off = readReg s.regs off := by
  cases found : regAt off with
  | none => simp only [readReg, found]
  | some name =>
    rw [(regAt_eq_some off name).mp found] at h
    cases name
    case status | out0 | out1 | out2 => exact absurd h (by decide)
    all_goals simp only [readReg, found, commit_range, commit_in0, commit_in1, commit_in2]

/-- Settles O31: NOP keeps the state, and every other command commits its result. -/
theorem commandsLeaveTheRestUnchanged : Obligations.CommandsLeaveTheRestUnchanged := by
  intro i s
  rcases exec_cases i s with ⟨rfl, run⟩ | ⟨r, result, run⟩
  · exact ⟨s, run, rfl, fun encode => absurd encode (by decide), fun _ _ => rfl⟩
  · refine ⟨commit r s, run, rfl, fun encode => ?_, fun off outside => readReg_commit outside r s⟩
    obtain ⟨colour, b3, F, isEncode⟩ := commandResult_of_encode encode s.regs
    obtain rfl : r = encodeResult _ _ _ b3 F := Option.some.inj (result.symm.trans isEncode)
    exact ⟨rfl, rfl⟩

/-! ### Grey pixels (R104) -/

/-- Settles O53: the same function of the same word gives the same byte. -/
theorem greyPixelsEncodeToEqualBytes : Obligations.GreyPixelsEncodeToEqualBytes := by
  intro i s encode in1 in2
  obtain ⟨colour, b3, F, result⟩ := commandResult_of_encode encode s.regs
  rw [in1, in2] at result
  obtain ⟨byte0, byte1, byte2, -⟩ := byteOf_pack (colour s.regs.in0) (colour s.regs.in0) (colour s.regs.in0) b3
  exact ⟨_, exec_of_commandResult result, byte1.trans byte0.symm, byte2.trans byte0.symm⟩

/-! ### The STATUS bits of an encode (R84, R161) -/

/-- A mask set for one of two causes is the OR of the mask set for each. -/
theorem ite_or_zero (P Q : Prop) [Decidable P] [Decidable Q] [Decidable (P ∨ Q)] (m : Word) :
    (if P ∨ Q then m else 0) = (if P then m else 0) ||| (if Q then m else 0) := by
  by_cases left : P
  · by_cases right : Q
    all_goals simp [left, right]
  · simp [left]

theorem or_interleave (a a' b b' c c' : Word) :
    a ||| a' ||| (b ||| b') ||| (c ||| c') = a ||| b ||| c ||| (a' ||| b' ||| c') := by
  ac_rfl

theorem inputFlagBits_cons (x : Word) (xs : List Word) :
    inputFlagBits (x :: xs) = inputFlagBits [x] ||| inputFlagBits xs := by
  simp only [inputFlagBits, List.exists_mem_cons_iff, List.not_mem_nil, false_and, exists_false, or_false, ite_or_zero]
  exact or_interleave _ _ _ _ _ _

/-- The flags `SAN` adds are those of the pattern's class. -/
theorem setFlags_san (x : Word) : setFlags 0 (san x).flags = inputFlagBits [x] := by
  obtain ⟨nan, posInf, negZero, negative, finite⟩ := sanitiserTreatsEachClass x
  have word := x.isLt
  simp only [inputFlagBits, List.exists_mem_cons_iff, List.not_mem_nil, false_and, exists_false, or_false]
  by_cases isNan : 0x7F800000 < x.toNat % 2 ^ 31
  · rw [nan isNan, if_pos isNan, if_neg (by omega), if_neg (by omega)]
    rfl
  rw [if_neg isNan]
  rcases lt_trichotomy x.toNat 0x7F800000 with below | inf | above
  · rw [finite below, if_neg (by omega), if_neg (by omega)]
    rfl
  · rw [posInf inf, if_neg (by omega), if_pos inf]
    rfl
  rw [if_neg above.ne' (c := x.toNat = 0x7F800000)]
  rcases Nat.eq_or_lt_of_le (show 0x80000000 ≤ x.toNat by omega) with zero | neg
  · rw [negZero zero.symm, if_neg (by omega)]
    rfl
  · have range : 0x80000000 < x.toNat ∧ x.toNat ≤ 0xFF800000 := ⟨neg, by omega⟩
    rw [negative range, if_pos range]
    rfl

/-- The input flags of the three channels together. -/
theorem setFlags_inputs (st x0 x1 x2 : Word) :
    setFlags st ((san x0).flags ++ (san x1).flags ++ (san x2).flags) = st ||| inputFlagBits [x0, x1, x2] := by
  rw [inputFlagBits_cons x0, inputFlagBits_cons x1, ← setFlags_san x0, ← setFlags_san x1, ← setFlags_san x2,
    setFlags_append, setFlags_append, setFlags_eq_or _ (san x2).flags, setFlags_eq_or _ (san x1).flags,
    setFlags_eq_or st, BitVec.or_assoc, BitVec.or_assoc]

theorem setFlags_ite (st : Word) (P : Prop) [Decidable P] (f : Flag) :
    setFlags st (if P then [f] else []) = st ||| if P then f.mask else 0 := by
  split
  · rfl
  · exact BitVec.or_zero.symm

theorem sat_mask : Flag.sat.mask = 0x08#32 := rfl

/-- The colour bytes of one encode raise SAT when one of them is saturated (R87). -/
theorem setFlags_saturated (st : Word) (F : List Flag) (n0 n1 n2 : ℕ) :
    setFlags st (F ++ (sat8 n0).flags ++ (sat8 n1).flags ++ (sat8 n2).flags) =
      setFlags st F ||| if 255 < n0 ∨ 255 < n1 ∨ 255 < n2 then 0x08#32 else 0 := by
  simp only [setFlags_append, sat8_flags, setFlags_ite, ite_or_zero, sat_mask, BitVec.or_assoc]

theorem commit_encodeResult (b0 b1 b2 b3 : Byte) (F : List Flag) (s : State) :
    commit (encodeResult b0 b1 b2 b3 F) s = { s with regs := { s.regs with
      out0 := pack b0 b1 b2 b3, out1 := 0, out2 := 0, status := setFlags s.regs.status F } } := rfl

/-! ### The largest channel -/

/-- `M` of R100 and R103: the largest sanitised channel. -/
def largestChannel (x0 x1 x2 : Word) : ℚ := max (san x0).value (max (san x1).value (san x2).value)

section
variable (x0 x1 x2 : Word)

theorem le_largestChannel :
    (san x0).value ≤ largestChannel x0 x1 x2 ∧ (san x1).value ≤ largestChannel x0 x1 x2 ∧
      (san x2).value ≤ largestChannel x0 x1 x2 := by
  simp [largestChannel]

theorem largestChannel_nonneg : 0 ≤ largestChannel x0 x1 x2 := le_max_of_le_left (san_value_nonneg x0)

theorem largestChannel_le_maxF : largestChannel x0 x1 x2 ≤ (2 ^ 24 - 1) * 2 ^ 104 :=
  max_le (san_value_le_maxF x0) (max_le (san_value_le_maxF x1) (san_value_le_maxF x2))

end

/-- From the floor on a pixel is not black (R91). -/
theorem largestChannel_pos {x0 x1 x2 : Word} (h : 1 / 10 ^ 32 ≤ largestChannel x0 x1 x2) :
    0 < largestChannel x0 x1 x2 := lt_of_lt_of_le (by norm_num) h

/-! ### ENC.RGBM (R100) -/

/-- `A` of R100. -/
def rgbmShared (rho M : ℚ) : ℕ := ⌈255 * M / rho⌉₊

/-- A colour byte of R100. -/
def rgbmColour (rho M c : ℚ) : ℕ := if M = 0 then 0 else ⌊65025 * c / (rho * rgbmShared rho M) + 1 / 2⌋₊

section
variable {rho M : ℚ} (pos : 0 < rho)
include pos

theorem rgbmShared_pos (h : 0 < M) : 0 < rgbmShared rho M := Nat.ceil_pos.mpr (by positivity)

/-- SAT's condition on the shared byte is the one on the channels (R100). -/
theorem lt_rgbmShared_iff : 255 < rgbmShared rho M ↔ rho < M := by
  rw [rgbmShared, Nat.lt_ceil, lt_div_iff₀ pos]
  push_cast
  exact mul_lt_mul_iff_right₀ (by norm_num)

/-- The ceiling makes the divisor at least every channel, so the clamp changes nothing. -/
theorem rgbmColour_eq_crq {c : ℚ} (h : 0 < M) (le : c ≤ M) :
    rgbmColour rho M c = crq (c / rho) ((rgbmShared rho M : ℚ) / 255) := by
  have shared : (0 : ℚ) < rgbmShared rho M := by exact_mod_cast rgbmShared_pos pos h
  have ratio : c / rho ≤ (rgbmShared rho M : ℚ) / 255 := by
    have ceil : 255 * M / rho ≤ rgbmShared rho M := Nat.le_ceil _
    calc c / rho ≤ M / rho := by gcongr
      _ = 255 * M / rho / 255 := by ring
      _ ≤ (rgbmShared rho M : ℚ) / 255 := by gcongr
  have scale : 255 * (c / rho) / ((rgbmShared rho M : ℚ) / 255) = 65025 * c / (rho * rgbmShared rho M) := by
    field_simp
    ring
  rw [crq_eq_of_ge (by positivity) ratio, scale, rgbmColour, if_neg h.ne', qr]

theorem rgbmColour_le {c : ℚ} (nonneg : 0 ≤ M) (le : c ≤ M) : rgbmColour rho M c ≤ 255 := by
  rcases nonneg.eq_or_lt with black | h
  · rw [rgbmColour, if_pos black.symm]
    exact Nat.zero_le _
  · exact rgbmColour_eq_crq pos h le ▸ crq_le _ _

end

theorem crq_div_one (A : ℕ) : crq ((A : ℚ) / 255) 1 = min A 255 := by
  have clamp : 255 * min ((A : ℚ) / 255 / 1) 1 = ((min A 255 : ℕ) : ℚ) := by
    rw [mul_min_of_nonneg _ _ (by norm_num), Nat.cast_min]
    ring_nf
  rw [crq, clamp, qr_natCast]

/-- ENC.RGBM for a legal RANGE (R100). -/
theorem encRgbm_eq (x0 x1 x2 : Word) {range : Word} (legal : legalRange range = true) :
    let M := largestChannel x0 x1 x2
    let colour := fun x : Word => byte (rgbmColour (val range) M (san x).value)
    encRgbm x0 x1 x2 range =
      encodeResult (colour x0) (colour x1) (colour x2) (byte (min (rgbmShared (val range) M) 255))
        ((san x0).flags ++ (san x1).flags ++ (san x2).flags ++ if val range < M then [.sat] else []) := by
  intro M colour
  have pos : 0 < val range := val_pos_of_legalRange legal
  have largest : max ((san x0).value / val range) (max ((san x1).value / val range) ((san x2).value / val range)) =
      M / val range := by
    rw [max_div_div_right pos.le, max_div_div_right pos.le]
    rfl
  have ceil : ⌈M / val range * 255⌉₊ = rgbmShared (val range) M := by rw [rgbmShared]; ring_nf
  simp only [encRgbm, largest, ceil, div_eq_zero_iff, pos.ne', or_false, gt_iff_lt, lt_rgbmShared_iff pos, crq_div_one]
  rcases (largestChannel_nonneg x0 x1 x2).eq_or_lt with black | lit
  · have zero : M = 0 := black.symm
    have colourless (c : ℚ) : rgbmColour (val range) M c = 0 := if_pos zero
    have shared : rgbmShared (val range) M = 0 := by rw [rgbmShared, zero, mul_zero, zero_div, Nat.ceil_zero]
    rw [if_pos zero, if_neg (zero ▸ pos.not_gt), List.append_nil, shared]
    simp only [colour, colourless]
    rfl
  · obtain ⟨red, green, blue⟩ := le_largestChannel x0 x1 x2
    have nonzero : M ≠ 0 := lit.ne'
    rw [if_neg nonzero]
    simp only [colour, rgbmColour_eq_crq pos lit red, rgbmColour_eq_crq pos lit green, rgbmColour_eq_crq pos lit blue, M]

/-- Settles O44: below the clamp the ratio quantizer is plain rounding, and the ceiling passes 255 where `M` passes
`rho`. -/
theorem encRgbmResult : Obligations.EncRgbmResult := by
  refine ⟨rfl, fun s legal => ?_⟩
  have pos : 0 < val s.regs.range := val_pos_of_legalRange legal
  have nonneg := largestChannel_nonneg s.regs.in0 s.regs.in1 s.regs.in2
  obtain ⟨red, green, blue⟩ := le_largestChannel s.regs.in0 s.regs.in1 s.regs.in2
  refine ⟨⟨rgbmColour_le pos nonneg red, rgbmColour_le pos nonneg green, rgbmColour_le pos nonneg blue⟩,
    fun nonzero => rgbmShared_pos pos (nonneg.lt_of_ne' nonzero), ?_⟩
  rw [exec_encRgbm, encRgbm_eq _ _ _ legal, commit_encodeResult, setFlags_append, setFlags_inputs, setFlags_ite]
  rfl

/-! ### ENC.RGBD (R101) -/

/-- Settles O45: no channel exceeds the divisor, so no byte is saturated. -/
theorem encRgbdResult : Obligations.EncRgbdResult := by
  refine ⟨rfl, fun s => ?_⟩
  have pos := largestFromOne_pos s.regs.in0 s.regs.in1 s.regs.in2
  obtain ⟨red, green, blue⟩ := le_largestFromOne s.regs.in0 s.regs.in1 s.regs.in2
  have shared := qd_ratio_le .trunc pos (one_le_largestFromOne s.regs.in0 s.regs.in1 s.regs.in2)
  rw [mul_one] at shared
  refine ⟨⟨qd_ratio_le .trunc pos red, qd_ratio_le .trunc pos green, qd_ratio_le .trunc pos blue, shared⟩,
    fun c _ largest => ?_, ?_⟩
  · have full : 255 * c / c = (255 : ℕ) := mul_div_cancel_right₀ _ (largest ▸ pos.ne')
    dsimp only
    rw [← largest, full, Nat.floor_natCast]
  · rw [exec_encRgbd, encRgbd_eq, commit_encodeResult, setFlags_inputs]
    rfl

/-! ### ENC.RGBD2 (R102) -/

/-- A colour level of R102, before it is saturated. -/
def rgbd2Level (rho : ℚ) (Dq : ℕ) (c : ℚ) : ℕ := ⌊255 * c * Dq / rho⌋₊

theorem rgbd2Shared_bounds (rho M : ℚ) : 1 ≤ rgbd2Shared rho M ∧ rgbd2Shared rho M ≤ 255 := by
  have one : 1 ≤ ⌊max (rho / M) 1⌋₊ := Nat.le_floor (by simp)
  exact ⟨le_min one (by norm_num), min_le_right _ _⟩

section
variable {rho : ℚ} (pos : 0 < rho)
include pos

theorem rgbd2Level_mono (Dq : ℕ) : Monotone (rgbd2Level rho Dq) := fun c c' le => by
  unfold rgbd2Level
  gcongr

/-- With the largest channel at most `rho` no level needs saturation (R102). -/
theorem rgbd2Level_le {c M : ℚ} (le : c ≤ M) (one : 1 ≤ M) (h : M ≤ rho) :
    rgbd2Level rho (rgbd2Shared rho M) c ≤ 255 := by
  have posM : 0 < M := by linarith
  have ratio : max (rho / M) 1 = rho / M := max_eq_left ((one_le_div posM).mpr h)
  have shared : (rgbd2Shared rho M : ℚ) ≤ rho / M := by
    have floor : (⌊rho / M⌋₊ : ℚ) ≤ rho / M := Nat.floor_le (by positivity)
    rw [rgbd2Shared, ratio]
    exact le_trans (by exact_mod_cast min_le_left _ _) floor
  apply Nat.floor_le_of_le
  rw [div_le_iff₀ pos]
  calc 255 * c * (rgbd2Shared rho M : ℚ) ≤ 255 * M * (rho / M) := by gcongr
    _ = (255 : ℕ) * rho := by
      push_cast
      field_simp

/-- Some level is saturated exactly when that of the largest channel is (R102). -/
theorem lt_rgbd2Level_max (n Dq : ℕ) (a b c : ℚ) :
    n < rgbd2Level rho Dq (max a (max b c)) ↔
      n < rgbd2Level rho Dq a ∨ n < rgbd2Level rho Dq b ∨ n < rgbd2Level rho Dq c := by
  rw [(rgbd2Level_mono pos Dq).map_max, (rgbd2Level_mono pos Dq).map_max, lt_max_iff, lt_max_iff]

end

/-- ENC.RGBD2 as the block computes it, with truncated levels (R6, R102). -/
theorem encRgbd2_trunc_eq (x0 x1 x2 range : Word) :
    let Dq := rgbd2Shared (val range) (largestFromOne x0 x1 x2)
    let level := fun x : Word => sat8 (rgbd2Level (val range) Dq (san x).value)
    encRgbd2 .trunc x0 x1 x2 range =
      encodeResult (byte (level x0).value) (byte (level x1).value) (byte (level x2).value) (byte Dq)
        ((san x0).flags ++ (san x1).flags ++ (san x2).flags ++
          (level x0).flags ++ (level x1).flags ++ (level x2).flags) :=
  encRgbd2_eq .trunc x0 x1 x2 range

/-- Settles O46: the levels grow with the channel, so SAT is decided by the largest. -/
theorem encRgbd2Result : Obligations.EncRgbd2Result := by
  refine ⟨rfl, fun s legal => ?_⟩
  have pos : 0 < val s.regs.range := val_pos_of_legalRange legal
  have saturates : 255 < rgbd2Level (val s.regs.range)
        (rgbd2Shared (val s.regs.range) (largestFromOne s.regs.in0 s.regs.in1 s.regs.in2))
        (largestChannel s.regs.in0 s.regs.in1 s.regs.in2) →
      val s.regs.range < largestFromOne s.regs.in0 s.regs.in1 s.regs.in2 := by
    contrapose!
    exact rgbd2Level_le pos (le_max_right _ _) (one_le_largestFromOne _ _ _)
  refine ⟨rgbd2Shared_bounds _ _, saturates, ?_⟩
  rw [exec_encRgbd2, encRgbd2_trunc_eq, commit_encodeResult, setFlags_saturated, setFlags_inputs,
    if_congr (lt_rgbd2Level_max pos 255 _ _ _ _).symm rfl rfl]
  simp only [sat8_value]
  rfl

/-! ### ENC.RGBE (R103) -/

/-- A colour level of R103, before it is saturated. -/
def rgbeLevel (e : ℤ) (c : ℚ) : ℕ := ⌊c * 2 ^ (8 - min e 127)⌋₊

/-- `FREXP`'s exponent names the binade of `M` (R89). -/
theorem frexp_binade {M : ℚ} (pos : 0 < M) : 2 ^ ((frexp M).e - 1) ≤ M ∧ M < 2 ^ (frexp M).e := by
  constructor
  · simpa [frexp] using Int.zpow_log_le_self (b := 2) one_lt_two pos
  · simpa [frexp] using Int.lt_zpow_succ_log_self (b := 2) one_lt_two M

/-- The scaler clamps exactly from `2^127` on (R88, R103). -/
theorem lt_frexp_e_iff {M : ℚ} (pos : 0 < M) : 127 < (frexp M).e ↔ 2 ^ 127 ≤ M := by
  obtain ⟨lo, hi⟩ := frexp_binade pos
  have top : (2 : ℚ) ^ (127 : ℤ) = 2 ^ 127 := zpow_natCast 2 127
  rw [← top]
  constructor
  · exact fun above => (zpow_le_zpow_right₀ (by norm_num) (by omega)).trans lo
  · exact fun le => (zpow_lt_zpow_iff_right₀ (by norm_num)).mp (le.trans_lt hi)

/-- Below the clamp a channel of its binade gives a byte (R103). -/
theorem rgbeLevel_le {e : ℤ} {c : ℚ} (lt : c < 2 ^ e) (h : e ≤ 127) : rgbeLevel e c ≤ 255 := by
  have scaled : c * 2 ^ (8 - e) < 2 ^ e * 2 ^ (8 - e) := by gcongr
  rw [← zpow_add₀ (by norm_num), add_sub_cancel] at scaled
  rw [rgbeLevel, min_eq_left h]
  exact Nat.le_of_lt_succ ((Nat.floor_lt' (by norm_num)).mpr (by exact_mod_cast scaled))

/-- SAT is the scaler's: a colour byte is saturated only where the exponent is clamped (R103). -/
theorem rgbe_saturates_iff {M : ℚ} (pos : 0 < M) {a b c : ℚ} (ha : a ≤ M) (hb : b ≤ M) (hc : c ≤ M) :
    let e := (frexp M).e
    127 < e ∨ 255 < rgbeLevel e a ∨ 255 < rgbeLevel e b ∨ 255 < rgbeLevel e c ↔ 2 ^ 127 ≤ M := by
  intro e
  rw [← lt_frexp_e_iff pos]
  have clamped {x : ℚ} (le : x ≤ M) (saturated : 255 < rgbeLevel e x) : 127 < e := by
    contrapose! saturated
    exact rgbeLevel_le (le.trans_lt (frexp_binade pos).2) saturated
  exact ⟨fun h => h.elim id fun h => h.elim (clamped ha) fun h => h.elim (clamped hb) (clamped hc), .inl⟩

/-- ENC.RGBE below the floor (R91, R103). -/
theorem encRgbe_of_lt {x0 x1 x2 : Word} (h : largestChannel x0 x1 x2 < 1 / 10 ^ 32) :
    encRgbe x0 x1 x2 = encodeResult 0 0 0 0
      ((san x0).flags ++ (san x1).flags ++ (san x2).flags ++ if 0 < largestChannel x0 x1 x2 then [.ufl] else []) :=
  if_pos h

/-- ENC.RGBE from the floor on (R88, R103). -/
theorem encRgbe_of_ge {x0 x1 x2 : Word} (h : 1 / 10 ^ 32 ≤ largestChannel x0 x1 x2) :
    let e := (frexp (largestChannel x0 x1 x2)).e
    let level := fun x : Word => sat8 (rgbeLevel e (san x).value)
    encRgbe x0 x1 x2 =
      encodeResult (byte (level x0).value) (byte (level x1).value) (byte (level x2).value)
        (byte (min e 127 + 128).toNat)
        ((san x0).flags ++ (san x1).flags ++ (san x2).flags ++ (if 127 < e then [.sat] else []) ++
          (level x0).flags ++ (level x1).flags ++ (level x2).flags) := by
  have notFloored : ¬ largestChannel x0 x1 x2 < Config.tFloor := h.not_gt
  have scale := ses_eq (largestChannel x0 x1 x2)
  unfold largestChannel at notFloored scale
  simp only [encRgbe, if_neg notFloored, scale]
  rfl

/-- Settles O47: `FREXP` gives the exponent, and every saturated byte comes with the scaler's own SAT. -/
theorem encRgbeResult : Obligations.EncRgbeResult := by
  refine ⟨rfl, fun s => ?_⟩
  dsimp only
  split
  case isTrue floored =>
    rw [exec_encRgbe, encRgbe_of_lt floored, commit_encodeResult, setFlags_append, setFlags_inputs, setFlags_ite]
    rfl
  case isFalse notFloored =>
    have atLeast : 1 / 10 ^ 32 ≤ largestChannel s.regs.in0 s.regs.in1 s.regs.in2 := not_lt.mp notFloored
    have pos := largestChannel_pos atLeast
    obtain ⟨lo, hi⟩ := frexp_binade pos
    obtain ⟨least, most⟩ := frexp_e_bounds atLeast (largestChannel_le_maxF _ _ _)
    obtain ⟨red, green, blue⟩ := le_largestChannel s.regs.in0 s.regs.in1 s.regs.in2
    refine ⟨_, lo, hi, least, most, ?_⟩
    rw [exec_encRgbe, encRgbe_of_ge atLeast, commit_encodeResult, setFlags_saturated, setFlags_append, setFlags_inputs,
      setFlags_ite, sat_mask, BitVec.or_assoc _ (ite _ _ _), ← ite_or_zero,
      if_congr (rgbe_saturates_iff pos red green blue) rfl rfl]
    simp only [sat8_value]
    rfl

/-! ### Scaling a pixel by a power of two (R103) -/

theorem frexp_e_mul_zpow {M : ℚ} (pos : 0 < M) (k : ℤ) : (frexp (M * 2 ^ k)).e = (frexp M).e + k := by
  obtain ⟨lo, hi⟩ := frexp_binade pos
  have scale : (0 : ℚ) < 2 ^ k := by positivity
  apply frexp_e_eq (mul_pos pos scale)
  · rw [add_sub_right_comm, zpow_add₀ (by norm_num)]
    gcongr
  · rw [zpow_add₀ (by norm_num)]
    gcongr

/-- Below the clamp the scale undoes the factor. -/
theorem rgbeLevel_mul_zpow {e k : ℤ} (h : e ≤ 127) (h' : e + k ≤ 127) (c : ℚ) :
    rgbeLevel (e + k) (c * 2 ^ k) = rgbeLevel e c := by
  rw [rgbeLevel, rgbeLevel, min_eq_left h, min_eq_left h', mul_assoc, ← zpow_add₀ (by norm_num)]
  congr 3
  ring

/-- The bytes of an ENC.RGBE pixel that is neither floored nor clamped (R103). -/
theorem byteOf_encRgbe {x0 x1 x2 : Word} (lo : 1 / 10 ^ 32 ≤ largestChannel x0 x1 x2)
    (hi : largestChannel x0 x1 x2 < 2 ^ 127) :
    let e := (frexp (largestChannel x0 x1 x2)).e
    let pixel := (encRgbe x0 x1 x2).o0
    e ≤ 127 ∧ byteOf pixel 0 = min (rgbeLevel e (san x0).value) 255 ∧
      byteOf pixel 1 = min (rgbeLevel e (san x1).value) 255 ∧
      byteOf pixel 2 = min (rgbeLevel e (san x2).value) 255 ∧ (byteOf pixel 3 : ℤ) = e + 128 := by
  intro e pixel
  have notClamped : e ≤ 127 := not_lt.mp fun above => hi.not_ge ((lt_frexp_e_iff (largestChannel_pos lo)).mp above)
  obtain ⟨least, -⟩ := frexp_e_bounds lo (largestChannel_le_maxF _ _ _)
  have packed : pixel = _ := congrArg CmdResult.o0 (encRgbe_of_ge lo)
  rw [encodeResult_o0] at packed
  simp only [sat8_value] at packed
  obtain ⟨byte0, byte1, byte2, byte3⟩ := byteOf_pack (byte (min (rgbeLevel e (san x0).value) 255))
    (byte (min (rgbeLevel e (san x1).value) 255)) (byte (min (rgbeLevel e (san x2).value) 255))
    (byte (min e 127 + 128).toNat)
  rw [byte_toNat (min_le_right _ _), ← packed] at byte0 byte1 byte2
  rw [byte_toNat (by omega), ← packed] at byte3
  exact ⟨notClamped, byte0, byte1, byte2, by omega⟩

/-- Settles O54: the exponent of the largest channel takes up the factor, and the levels do not see it. -/
theorem rgbeScalingMovesOnlyTheExponent : Obligations.RgbeScalingMovesOnlyTheExponent := by
  intro s s' k V M scaled lo hi lo' hi'
  simp only [V, List.map_cons, List.map_nil, List.cons.injEq, and_true] at scaled
  obtain ⟨red, green, blue⟩ := scaled
  have largest : M s' = M s * 2 ^ k := by
    have nonneg : (0 : ℚ) ≤ 2 ^ k := by positivity
    simp only [M, red, green, blue, max_mul_of_nonneg _ _ nonneg]
  have exponent : (frexp (M s')).e = (frexp (M s)).e + k := largest ▸ frexp_e_mul_zpow (largestChannel_pos lo) k
  obtain ⟨le, byte0, byte1, byte2, byte3⟩ := byteOf_encRgbe lo hi
  obtain ⟨le', byte0', byte1', byte2', byte3'⟩ := byteOf_encRgbe lo' hi'
  have level {c c' : ℚ} (h : c' = c * 2 ^ k) :
      min (rgbeLevel (frexp (M s')).e c') 255 = min (rgbeLevel (frexp (M s)).e c) 255 := by
    rw [h, exponent]
    exact congrArg (min · 255) (rgbeLevel_mul_zpow le (exponent.symm.trans_le le') c)
  refine ⟨_, _, exec_encRgbe s, exec_encRgbe s', byte0'.trans ((level red).trans byte0.symm),
    byte1'.trans ((level green).trans byte1.symm), byte2'.trans ((level blue).trans byte2.symm), ?_⟩
  calc (byteOf (encRgbe s'.regs.in0 s'.regs.in1 s'.regs.in2).o0 3 : ℤ) = (frexp (M s')).e + 128 := byte3'
    _ = (frexp (M s)).e + 128 + k := by rw [exponent, add_right_comm]
    _ = byteOf (encRgbe s.regs.in0 s.regs.in1 s.regs.in2).o0 3 + k := congrArg (· + k) byte3.symm

end Sys2Proof.Machine
end

section
/-! PROOFS. What each decode command commits (42_decode.md R120 to R123): the exact value of each channel, the one
rounding to binary32, which DEC.RGBE never needs, and the zero divisor. -/

namespace Sys2Proof.Machine

/-! ### The pixel and the frame -/

/-- The operand's four bytes, as the statements number them (R13, R42). -/
theorem unpack_toNat (w : Word) :
    (unpack w).b0.toNat = byteOf w 0 ∧ (unpack w).b1.toNat = byteOf w 1 ∧
      (unpack w).b2.toNat = byteOf w 2 ∧ (unpack w).b3.toNat = byteOf w 3 := by
  have bytes := byteOf_pack (unpack w).b0 (unpack w).b1 (unpack w).b2 (unpack w).b3
  rw [pack_unpack] at bytes
  obtain ⟨byte0, byte1, byte2, byte3⟩ := bytes
  exact ⟨byte0.symm, byte1.symm, byte2.symm, byte3.symm⟩

theorem sharedByte_eq_zero_iff (w : Word) : (unpack w).b3 = 0 ↔ byteOf w 3 = 0 := by
  obtain ⟨-, -, -, byte3⟩ := unpack_toNat w
  rw [← byte3, ← BitVec.toNat_inj]
  rfl

theorem commit_decodeResult (r g b : ℚ) (s : State) :
    commit (decodeResult r g b []) s =
      { s with regs := { s.regs with out0 := rne32 r, out1 := rne32 g, out2 := rne32 b } } := rfl

theorem commit_zeroDivisorResult (s : State) :
    commit zeroDivisorResult s =
      { s with regs := { s.regs with out0 := 0, out1 := 0, out2 := 0, status := s.regs.status ||| 0x10#32 } } := rfl

/-! ### The one rounding (R12, R82) -/

/-- A channel no larger than a binary32 value is rounded to the nearest one. -/
theorem isRne32_of_bounds {q : ℚ} {z : Word} (h : 0 ≤ q ∧ q ≤ val z) (finite : isFiniteNonneg z = true) :
    IsRne32 q (rne32 q) := by
  obtain ⟨nonneg, le⟩ := h
  exact rne32_isRne32 nonneg (le.trans (val_le_maxF finite))

/-- Rounding does not pass a binary32 value, since that value would be nearer. -/
theorem IsRne32.val_le {q : ℚ} {y z : Word} (h : IsRne32 q y) (finite : isFiniteNonneg z = true) (le : q ≤ val z) :
    val y ≤ val z := by
  obtain ⟨-, nearest⟩ := h
  have near := (nearest z finite).1
  rw [abs_of_nonneg (sub_nonneg.mpr le)] at near
  linarith [le_abs_self (val y - q)]

/-! ### DEC.RGBM (R120) -/

theorem decRgbm_eq (w range : Word) :
    decRgbm w range = decodeResult (rgbmChannel (val range) (unpack w).b3 (unpack w).b0)
      (rgbmChannel (val range) (unpack w).b3 (unpack w).b1)
      (rgbmChannel (val range) (unpack w).b3 (unpack w).b2) [] := rfl

theorem rgbmChannel_eq (rho : ℚ) (b3 b : Byte) : rgbmChannel rho b3 b = b.toNat * b3.toNat * rho / 65025 := by
  unfold rgbmChannel
  ring

theorem rgbmChannel_isRne32 {range : Word} (legal : legalRange range = true) (b3 b : Byte) :
    IsRne32 (b.toNat * b3.toNat * val range / 65025) (rne32 (rgbmChannel (val range) b3 b)) := by
  rw [← rgbmChannel_eq]
  exact isRne32_of_bounds (rgbmChannel_bounds (val_pos_of_legalRange legal).le b3 b)
    (isFiniteNonneg_of_legalRange legal)

/-- The largest result is RANGE itself (R120). -/
theorem rne32_rgbmChannel_full {range : Word} (legal : legalRange range = true) :
    rne32 (rgbmChannel (val range) 255 255) = range := by
  have full : rgbmChannel (val range) 255 255 = val range := by
    rw [rgbmChannel_eq, show (255 : Byte).toNat = 255 from rfl]
    ring
  rw [full, rne32_val (isFiniteNonneg_of_legalRange legal)]

/-- Settles O49: each channel is at most `rho`, and is `rho` for bytes that are all 255. -/
theorem decRgbmResult : Obligations.DecRgbmResult := by
  refine ⟨rfl, fun s legal => ?_⟩
  obtain ⟨byte0, byte1, byte2, byte3⟩ := unpack_toNat s.regs.in0
  dsimp only
  rw [exec_decRgbm, decRgbm_eq, commit_decodeResult, ← byte0, ← byte1, ← byte2, ← byte3]
  refine ⟨_, _, _, rfl, rgbmChannel_isRne32 legal _ _,
    rgbmChannel_isRne32 legal _ _, rgbmChannel_isRne32 legal _ _, fun allOnes => ?_⟩
  rw [allOnes]
  have full := rne32_rgbmChannel_full legal
  exact ⟨full, full, full⟩

/-! ### DEC.RGBD (R121) -/

theorem decRgbd_of_eq {w : Word} (h : byteOf w 3 = 0) : decRgbd w = zeroDivisorResult :=
  if_pos ((sharedByte_eq_zero_iff w).mpr h)

theorem decRgbd_of_ne {w : Word} (h : byteOf w 3 ≠ 0) :
    decRgbd w = decodeResult (rgbdChannel (unpack w).b3 (unpack w).b0) (rgbdChannel (unpack w).b3 (unpack w).b1)
      (rgbdChannel (unpack w).b3 (unpack w).b2) [] :=
  if_neg ((sharedByte_eq_zero_iff w).not.mpr h)

theorem rgbdChannel_isRne32 {b3 : Byte} (h : b3 ≠ 0) (b : Byte) :
    IsRne32 (b.toNat / b3.toNat) (rne32 (rgbdChannel b3 b)) := by
  have eq : (b.toNat : ℚ) / b3.toNat = rgbdChannel b3 b := by rw [rgbdChannel, mul_one_div]
  obtain ⟨nonneg, le⟩ := rgbdChannel_bounds h b
  rw [eq]
  exact rne32_isRne32 nonneg (le.trans (by norm_num))

/-- Settles O50: a shared byte of at least 1 keeps each channel within 255. -/
theorem decRgbdResult : Obligations.DecRgbdResult := by
  refine ⟨rfl, fun s => ?_⟩
  obtain ⟨byte0, byte1, byte2, byte3⟩ := unpack_toNat s.regs.in0
  dsimp only
  split
  case isTrue zero => rw [exec_decRgbd, decRgbd_of_eq zero, commit_zeroDivisorResult]
  case isFalse nonzero =>
    have divisor := (sharedByte_eq_zero_iff s.regs.in0).not.mpr nonzero
    rw [exec_decRgbd, decRgbd_of_ne nonzero, commit_decodeResult, ← byte0, ← byte1, ← byte2, ← byte3]
    exact ⟨_, _, _, rfl, rgbdChannel_isRne32 divisor _, rgbdChannel_isRne32 divisor _, rgbdChannel_isRne32 divisor _⟩

/-! ### DEC.RGBD2 (R122) -/

theorem decRgbd2_of_eq {w : Word} (h : byteOf w 3 = 0) (range : Word) : decRgbd2 w range = zeroDivisorResult :=
  if_pos ((sharedByte_eq_zero_iff w).mpr h)

theorem decRgbd2_of_ne {w : Word} (h : byteOf w 3 ≠ 0) (range : Word) :
    decRgbd2 w range = decodeResult (rgbd2Channel (val range) (unpack w).b3 (unpack w).b0)
      (rgbd2Channel (val range) (unpack w).b3 (unpack w).b1)
      (rgbd2Channel (val range) (unpack w).b3 (unpack w).b2) [] :=
  if_neg ((sharedByte_eq_zero_iff w).not.mpr h)

theorem rgbd2Channel_eq (rho : ℚ) (b3 b : Byte) : rgbd2Channel rho b3 b = b.toNat * rho / (255 * b3.toNat) := by
  unfold rgbd2Channel
  field_simp

/-- What one channel of DEC.RGBD2 leaves in its register (R122). -/
theorem rgbd2Channel_isRne32 {range : Word} (legal : legalRange range = true) {b3 : Byte} (h : b3 ≠ 0) (b : Byte) :
    IsRne32 (b.toNat * val range / (255 * b3.toNat)) (rne32 (rgbd2Channel (val range) b3 b)) ∧
      val (rne32 (rgbd2Channel (val range) b3 b)) ≤ val range := by
  have finite := isFiniteNonneg_of_legalRange legal
  have bounds := rgbd2Channel_bounds (val_pos_of_legalRange legal).le h b
  have rounded := isRne32_of_bounds bounds finite
  exact ⟨rgbd2Channel_eq (val range) b3 b ▸ rounded, rounded.val_le finite bounds.2⟩

/-- Settles O51: each channel is at most `rho`, and rounding does not pass it. -/
theorem decRgbd2Result : Obligations.DecRgbd2Result := by
  refine ⟨rfl, fun s legal => ?_⟩
  obtain ⟨byte0, byte1, byte2, byte3⟩ := unpack_toNat s.regs.in0
  dsimp only
  split
  case isTrue zero => rw [exec_decRgbd2, decRgbd2_of_eq zero, commit_zeroDivisorResult]
  case isFalse nonzero =>
    have divisor := (sharedByte_eq_zero_iff s.regs.in0).not.mpr nonzero
    rw [exec_decRgbd2, decRgbd2_of_ne nonzero, commit_decodeResult, ← byte0, ← byte1, ← byte2, ← byte3]
    obtain ⟨red, redLe⟩ := rgbd2Channel_isRne32 legal divisor (unpack s.regs.in0).b0
    obtain ⟨green, greenLe⟩ := rgbd2Channel_isRne32 legal divisor (unpack s.regs.in0).b1
    obtain ⟨blue, blueLe⟩ := rgbd2Channel_isRne32 legal divisor (unpack s.regs.in0).b2
    exact ⟨_, _, _, rfl, red, green, blue, redLe, greenLe, blueLe⟩

/-! ### DEC.RGBE (R123) -/

theorem val_zero : val 0x00000000#32 = 0 := by
  have zero : OnGrid 0x00000000#32 0 0 := ⟨rfl, by decide, by decide, .inl rfl⟩
  rw [zero.val_eq, Nat.cast_zero, zero_mul]

@[simp] theorem rne_natCast (n : ℕ) : rne n = n :=
  le_antisymm (rne_le n.cast_nonneg le_rfl) (le_rne le_rfl)

/-- A number of less than 2^24 steps of some grid lies in that grid's binade or a lower one. -/
theorem binadeOf_le_of_steps {q : ℚ} {n J : ℕ} (pos : 0 < q) (steps : q = n * ulp J) (hn : n < 2 ^ 24) :
    binadeOf q ≤ J := by
  have bound : q < ((2 : ℕ) : ℚ) ^ ((J : ℤ) - 125) := by
    calc q = n * ulp J := steps
      _ < 2 ^ 24 * ulp J := mul_lt_mul_of_pos_right (by exact_mod_cast hn) (ulp_pos J)
      _ = ((2 : ℕ) : ℚ) ^ ((J : ℤ) - 125) := by
        rw [ulp, ← zpow_natCast, Nat.cast_ofNat, ← zpow_add₀ (by norm_num)]
        congr 1
        ring
  have log := (Int.lt_zpow_iff_log_lt one_lt_two pos).mp bound
  unfold binadeOf
  omega

/-- What fits 24 bits needs no rounding: it is a whole number of steps of the grid `RNE32` rounds on (R12). -/
theorem val_rne32_of_steps {q : ℚ} {n J : ℕ} (steps : q = n * ulp J) (hn : n < 2 ^ 24)
    (hmax : q ≤ (2 ^ 24 - 1) * 2 ^ 104) : val (rne32 q) = q := by
  rcases (steps ▸ mul_nonneg n.cast_nonneg (ulp_pos J).le : 0 ≤ q).eq_or_lt with rfl | pos
  · rw [rne32_zero, val_zero]
  obtain ⟨d, hd⟩ := Nat.exists_eq_add_of_le (binadeOf_le_of_steps pos steps hn)
  have whole : q = (n * 2 ^ d : ℕ) * ulp (binadeOf q) := by
    calc q = n * ulp (binadeOf q + d) := hd ▸ steps
      _ = (n * 2 ^ d : ℕ) * ulp (binadeOf q) := by
        rw [ulp_add]
        push_cast
        ring
  have integer : q / ulp (binadeOf q) = (n * 2 ^ d : ℕ) := (div_eq_iff (ulp_pos _).ne').mpr whole
  rw [(rne32_onGrid pos hmax).val_eq, integer, rne_natCast, ← whole]

theorem decRgbe_eq (w : Word) :
    decRgbe w = decodeResult (rgbeChannel (unpack w).b3 (unpack w).b0)
      (rgbeChannel (unpack w).b3 (unpack w).b1) (rgbeChannel (unpack w).b3 (unpack w).b2) [] := rfl

theorem rgbeChannel_eq (b3 b : Byte) : rgbeChannel b3 b = b.toNat * 2 ^ ((b3.toNat : ℤ) - 136) := rfl

theorem rgbeChannel_eq_steps (b3 b : Byte) : rgbeChannel b3 b = b.toNat * ulp (b3.toNat + 13) := by
  rw [rgbeChannel_eq, ulp]
  congr 2
  push_cast
  ring

/-- A byte scaled by a power of two from `2^-136` to `2^119` is a binary32 value (R123). -/
theorem rgbeChannel_exact (b3 b : Byte) :
    isFiniteNonneg (rne32 (rgbeChannel b3 b)) = true ∧
      val (rne32 (rgbeChannel b3 b)) = b.toNat * 2 ^ ((b3.toNat : ℤ) - 136) := by
  have lt := b.isLt
  obtain ⟨nonneg, le⟩ := rgbeChannel_bounds b3 b
  have hmax : rgbeChannel b3 b ≤ (2 ^ 24 - 1) * 2 ^ 104 := le.trans (by norm_num)
  refine ⟨isFiniteNonneg_rne32 nonneg hmax, ?_⟩
  exact val_rne32_of_steps (rgbeChannel_eq_steps b3 b) (by omega) hmax

/-- Settles O52: no channel needs more than eight bits of fraction. -/
theorem decRgbeResult : Obligations.DecRgbeResult := by
  refine ⟨rfl, fun s => ?_⟩
  obtain ⟨byte0, byte1, byte2, byte3⟩ := unpack_toNat s.regs.in0
  dsimp only
  rw [exec_decRgbe, decRgbe_eq, commit_decodeResult, ← byte0, ← byte1, ← byte2, ← byte3]
  obtain ⟨redFinite, red⟩ := rgbeChannel_exact (unpack s.regs.in0).b3 (unpack s.regs.in0).b0
  obtain ⟨greenFinite, green⟩ := rgbeChannel_exact (unpack s.regs.in0).b3 (unpack s.regs.in0).b1
  obtain ⟨blueFinite, blue⟩ := rgbeChannel_exact (unpack s.regs.in0).b3 (unpack s.regs.in0).b2
  exact ⟨_, _, _, rfl, redFinite, red, greenFinite, green, blueFinite, blue⟩

end Sys2Proof.Machine
end

section
/-! PROOFS. The round trips of 42_decode.md R125: the encode's bytes count steps of the decode, so what a trip loses is
what the byte quantizer loses. -/

namespace Sys2Proof.Machine

/-- The host feeds a result back (R125): OUT0 becomes the operand of a decode. -/
def feedBack (t : State) : State := { t with regs := { t.regs with in0 := t.regs.out0 } }

/-! ### The quantizers in steps (R85) -/

/-- Truncation leaves less than a step. -/
theorem floor_steps_error {c step : ℚ} (nonneg : 0 ≤ c) (pos : 0 < step) :
    0 ≤ c - ⌊c / step⌋₊ * step ∧ c - ⌊c / step⌋₊ * step < step := by
  rw [natCast_floor_eq_intCast_floor (by positivity)]
  exact ⟨Int.sub_floor_div_mul_nonneg c pos, Int.sub_floor_div_mul_lt c pos⟩

/-- Rounding leaves at most half a step. -/
theorem qr_steps_error {c step : ℚ} (nonneg : 0 ≤ c) (pos : 0 < step) : |qr (c / step) * step - c| ≤ step / 2 := by
  have scaled : qr (c / step) * step - c = (qr (c / step) - c / step) * step := by
    rw [sub_mul, div_mul_cancel₀ _ pos.ne']
  rw [scaled, abs_mul, abs_of_pos pos]
  calc |(qr (c / step) : ℚ) - c / step| * step ≤ 1 / 2 * step := by
        gcongr
        exact qr_error (by positivity)
    _ = step / 2 := by ring

/-! ### The bytes fed back (R13, R42) -/

theorem byteOf_le (w : Word) (k : ℕ) : byteOf w k ≤ 255 := Nat.le_of_lt_succ (Nat.mod_lt _ (by norm_num))

/-- A pixel packed from four integers the spec allows gives them back. -/
theorem byteOf_pack_byte {n0 n1 n2 n3 : ℕ} (h0 : n0 ≤ 255) (h1 : n1 ≤ 255) (h2 : n2 ≤ 255) (h3 : n3 ≤ 255) :
    let pixel := pack (byte n0) (byte n1) (byte n2) (byte n3)
    byteOf pixel 0 = n0 ∧ byteOf pixel 1 = n1 ∧ byteOf pixel 2 = n2 ∧ byteOf pixel 3 = n3 := by
  have bytes := byteOf_pack (byte n0) (byte n1) (byte n2) (byte n3)
  rwa [byte_toNat h0, byte_toNat h1, byte_toNat h2, byte_toNat h3] at bytes

/-! ### RGBM -/

/-- The bytes of an ENC.RGBM pixel with every channel at most `rho` (R100). -/
theorem byteOf_encRgbm {x0 x1 x2 range : Word} (legal : legalRange range = true)
    (inRange : largestChannel x0 x1 x2 ≤ val range) :
    let M := largestChannel x0 x1 x2
    let colour := fun x : Word => rgbmColour (val range) M (san x).value
    let pixel := (encRgbm x0 x1 x2 range).o0
    byteOf pixel 0 = colour x0 ∧ byteOf pixel 1 = colour x1 ∧ byteOf pixel 2 = colour x2 ∧
      byteOf pixel 3 = rgbmShared (val range) M := by
  intro M colour pixel
  have pos : 0 < val range := val_pos_of_legalRange legal
  have fits {x : Word} (le : (san x).value ≤ M) : colour x ≤ 255 :=
    rgbmColour_le pos (largestChannel_nonneg x0 x1 x2) le
  have sharedFits : rgbmShared (val range) M ≤ 255 := not_lt.mp ((lt_rgbmShared_iff pos).not.mpr inRange.not_gt)
  have packed : pixel = pack (byte (colour x0)) (byte (colour x1)) (byte (colour x2))
      (byte (min (rgbmShared (val range) M) 255)) := congrArg CmdResult.o0 (encRgbm_eq x0 x1 x2 legal)
  obtain ⟨red, green, blue⟩ := le_largestChannel x0 x1 x2
  rw [packed, min_eq_left sharedFits]
  exact byteOf_pack_byte (fits red) (fits green) (fits blue) sharedFits

/-- A colour byte of R100 counts steps of `A * rho / 65025`; a black pixel has no step and loses nothing. -/
theorem rgbmColour_error {rho M c : ℚ} (pos : 0 < rho) (nonneg : 0 ≤ c) (le : c ≤ M) :
    |(rgbmColour rho M c : ℚ) * rgbmShared rho M * rho / 65025 - c| ≤ rgbmShared rho M * rho / 130050 := by
  rcases (nonneg.trans le).eq_or_lt with black | lit
  · obtain rfl : c = 0 := le_antisymm (le.trans_eq black.symm) nonneg
    rw [rgbmColour, if_pos black.symm]
    simp only [Nat.cast_zero, zero_mul, zero_div, sub_zero, abs_zero]
    positivity
  · have shared : (0 : ℚ) < rgbmShared rho M := by exact_mod_cast rgbmShared_pos pos lit
    have steps : 65025 * c / (rho * rgbmShared rho M) = c / (rgbmShared rho M * rho / 65025) := by
      field_simp
    have error := qr_steps_error (step := rgbmShared rho M * rho / 65025) nonneg (by positivity)
    rw [rgbmColour, if_neg lit.ne', steps, mul_assoc, mul_div_assoc]
    exact error.trans_eq (by ring)

/-- Settles O55: the decode of R120 multiplies the bytes by the very step the encode divided by. -/
theorem rgbmRoundTripIsWithinAStep : Obligations.RgbmRoundTripIsWithinAStep := by
  intro s legal rho inRange
  have pos : 0 < rho := val_pos_of_legalRange legal
  simp only [List.forall_mem_cons, List.not_mem_nil, false_implies, implies_true, and_true] at inRange
  obtain ⟨redIn, greenIn, blueIn⟩ := inRange
  obtain ⟨red, green, blue⟩ := le_largestChannel s.regs.in0 s.regs.in1 s.regs.in2
  obtain ⟨byte0, byte1, byte2, byte3⟩ := byteOf_encRgbm legal (max_le redIn (max_le greenIn blueIn))
  set c := encRgbm s.regs.in0 s.regs.in1 s.regs.in2 s.regs.range
  have shared : (byteOf c.o0 3 : ℚ) * rho / 130050 ≤ rho / 510 := by
    have le : (byteOf c.o0 3 : ℚ) ≤ 255 := by exact_mod_cast byteOf_le c.o0 3
    calc (byteOf c.o0 3 : ℚ) * rho / 130050 ≤ 255 * rho / 130050 := by gcongr
      _ = rho / 510 := by ring
  have near {x : Word} {n : ℕ} (le : (san x).value ≤ largestChannel s.regs.in0 s.regs.in1 s.regs.in2)
      (colour : n = rgbmColour rho (largestChannel s.regs.in0 s.regs.in1 s.regs.in2) (san x).value) :
      |(n : ℚ) * byteOf c.o0 3 * rho / 65025 - (san x).value| ≤ byteOf c.o0 3 * rho / 130050 := by
    rw [colour, byte3]
    exact rgbmColour_error pos (san_value_nonneg x) le
  obtain ⟨-, decode⟩ := decRgbmResult
  obtain ⟨y0, y1, y2, run, rounded0, rounded1, rounded2, -⟩ := decode (feedBack (commit c s)) legal
  exact ⟨_, _, exec_encRgbm s, run, shared, ⟨rounded0, near red byte0⟩, ⟨rounded1, near green byte1⟩,
    ⟨rounded2, near blue byte2⟩⟩

/-! ### RGBD2 -/

/-- With every channel at most `rho` no level needs saturation, the `rho` below 1 included (R102). -/
theorem rgbd2Level_le_of_le {rho c C : ℚ} (pos : 0 < rho) (le : c ≤ C) (inRange : C ≤ rho) :
    rgbd2Level rho (rgbd2Shared rho (max 1 C)) c ≤ 255 := by
  rcases le_or_gt 1 rho with one | small
  · exact rgbd2Level_le pos (le.trans (le_max_right 1 C)) (le_max_left 1 C) (max_le one inRange)
  · have divisor : max 1 C = 1 := max_eq_left (inRange.trans small.le)
    have shared : rgbd2Shared rho (max 1 C) = 1 := by
      rw [divisor, rgbd2Shared, div_one, max_eq_right small.le, Nat.floor_one]
      rfl
    apply Nat.floor_le_of_le
    rw [shared, div_le_iff₀ pos]
    push_cast
    linarith

/-- The bytes of an ENC.RGBD2 pixel with every channel at most `rho` (R102). -/
theorem byteOf_encRgbd2 {x0 x1 x2 range : Word} (legal : legalRange range = true)
    (inRange : largestChannel x0 x1 x2 ≤ val range) :
    let Dq := rgbd2Shared (val range) (largestFromOne x0 x1 x2)
    let level := fun x : Word => rgbd2Level (val range) Dq (san x).value
    let pixel := (encRgbd2 .trunc x0 x1 x2 range).o0
    byteOf pixel 0 = level x0 ∧ byteOf pixel 1 = level x1 ∧ byteOf pixel 2 = level x2 ∧ byteOf pixel 3 = Dq := by
  intro Dq level pixel
  have fits {x : Word} (le : (san x).value ≤ largestChannel x0 x1 x2) : level x ≤ 255 :=
    rgbd2Level_le_of_le (val_pos_of_legalRange legal) le inRange
  obtain ⟨-, sharedFits⟩ := rgbd2Shared_bounds (val range) (largestFromOne x0 x1 x2)
  have packed : pixel = pack (byte (sat8 (level x0)).value) (byte (sat8 (level x1)).value)
      (byte (sat8 (level x2)).value) (byte Dq) := congrArg CmdResult.o0 (encRgbd2_trunc_eq x0 x1 x2 range)
  obtain ⟨red, green, blue⟩ := le_largestChannel x0 x1 x2
  rw [packed, sat8_of_le (fits red), sat8_of_le (fits green), sat8_of_le (fits blue)]
  exact byteOf_pack_byte (fits red) (fits green) (fits blue) sharedFits

/-- A level of R102 counts steps of `rho / (255 * Dq)`. -/
theorem rgbd2Level_error {rho c : ℚ} {Dq : ℕ} (pos : 0 < rho) (shared : 1 ≤ Dq) (nonneg : 0 ≤ c) :
    0 ≤ c - rgbd2Level rho Dq c * rho / (255 * Dq) ∧
      c - rgbd2Level rho Dq c * rho / (255 * Dq) < rho / (255 * Dq) := by
  have cast : (0 : ℚ) < Dq := by exact_mod_cast shared
  have steps : 255 * c * Dq / rho = c / (rho / (255 * Dq)) := by field_simp
  rw [rgbd2Level, steps, mul_div_assoc]
  exact floor_steps_error nonneg (by positivity)

/-- Settles O56: the levels are truncated counts of the decode's own step. -/
theorem rgbd2RoundTripIsWithinAStep : Obligations.Rgbd2RoundTripIsWithinAStep := by
  intro s legal rho inRange
  have pos : 0 < rho := val_pos_of_legalRange legal
  simp only [List.forall_mem_cons, List.not_mem_nil, false_implies, implies_true, and_true] at inRange
  obtain ⟨redIn, greenIn, blueIn⟩ := inRange
  obtain ⟨byte0, byte1, byte2, byte3⟩ := byteOf_encRgbd2 legal (max_le redIn (max_le greenIn blueIn))
  obtain ⟨shared, -⟩ := rgbd2Shared_bounds rho (largestFromOne s.regs.in0 s.regs.in1 s.regs.in2)
  set c := encRgbd2 .trunc s.regs.in0 s.regs.in1 s.regs.in2 s.regs.range
  have one : 1 ≤ byteOf c.o0 3 := shared.trans_eq byte3.symm
  have oneCast : (1 : ℚ) ≤ byteOf c.o0 3 := by exact_mod_cast one
  have near {x : Word} {n : ℕ} (level : n = rgbd2Level rho
        (rgbd2Shared rho (largestFromOne s.regs.in0 s.regs.in1 s.regs.in2)) (san x).value) :
      0 ≤ (san x).value - n * rho / (255 * byteOf c.o0 3) ∧
        (san x).value - n * rho / (255 * byteOf c.o0 3) < rho / (255 * byteOf c.o0 3) := by
    rw [level, byte3]
    exact rgbd2Level_error pos shared (san_value_nonneg x)
  have step : rho / (255 * byteOf c.o0 3) ≤ rho / 255 :=
    div_le_div_of_nonneg_left pos.le (by norm_num) (le_mul_of_one_le_right (by norm_num) oneCast)
  obtain ⟨-, decode⟩ := decRgbd2Result
  obtain ⟨y0, y1, y2, run, rounded0, rounded1, rounded2, -⟩ :=
    Eq.mp (if_neg (Nat.ne_of_gt one)) (decode (feedBack (commit c s)) legal)
  exact ⟨_, _, exec_encRgbd2 s, run, oneCast, step, ⟨rounded0, near byte0⟩, ⟨rounded1, near byte1⟩,
    ⟨rounded2, near byte2⟩⟩

/-! ### RGBE -/

/-- A byte of R103 counts steps of `2^(e-8)`, which the decode's exponent `e + 128 - 136` is (R123). -/
theorem rgbeByte_error {e : ℤ} {c : ℚ} (h : e ≤ 127) (nonneg : 0 ≤ c) (lt : c < 2 ^ e) :
    0 ≤ c - (min (rgbeLevel e c) 255 : ℕ) * 2 ^ (e + 128 - 136) ∧
      c - (min (rgbeLevel e c) 255 : ℕ) * 2 ^ (e + 128 - 136) < 2 ^ (e - 8) := by
  have steps : c * 2 ^ (8 - e) = c / 2 ^ (e - 8) := by rw [div_eq_mul_inv, ← zpow_neg, neg_sub]
  have exponent : e + 128 - 136 = e - 8 := by ring
  rw [min_eq_left (rgbeLevel_le lt h), rgbeLevel, min_eq_left h, steps, exponent]
  exact floor_steps_error nonneg (by positivity)

/-- The floor pixel decodes to zeros (R91, R125). -/
theorem eq_zero_of_val_eq_zero {y : Word} (finite : isFiniteNonneg y = true) (h : val y = 0) : y = 0 :=
  val_inj finite isFiniteNonneg_zero (h.trans val_zero.symm)

/-- Settles O57: the decode is exact, so only the truncation of the levels is lost. -/
theorem rgbeRoundTripIsWithinAStep : Obligations.RgbeRoundTripIsWithinAStep := by
  intro s M below
  set c := encRgbe s.regs.in0 s.regs.in1 s.regs.in2
  obtain ⟨-, decode⟩ := decRgbeResult
  obtain ⟨y0, y1, y2, run, finite0, val0, finite1, val1, finite2, val2⟩ := decode (feedBack (commit c s))
  refine ⟨_, _, exec_encRgbe s, run, ?_⟩
  dsimp only [feedBack, commit_out0] at val0 val1 val2 ⊢
  split
  case isTrue floored =>
    have black : c.o0 = 0 := congrArg CmdResult.o0 (encRgbe_of_lt floored)
    have byteZero (k : ℕ) : byteOf 0 k = 0 := by simp [byteOf]
    rw [black, byteZero, Nat.cast_zero, zero_mul] at val0 val1 val2
    exact ⟨eq_zero_of_val_eq_zero finite0 val0, eq_zero_of_val_eq_zero finite1 val1,
      eq_zero_of_val_eq_zero finite2 val2⟩
  case isFalse notFloored =>
    have atLeast : 1 / 10 ^ 32 ≤ M := not_lt.mp notFloored
    obtain ⟨lo, hi⟩ := frexp_binade (largestChannel_pos atLeast)
    obtain ⟨red, green, blue⟩ := le_largestChannel s.regs.in0 s.regs.in1 s.regs.in2
    obtain ⟨notClamped, byte0, byte1, byte2, byte3⟩ := byteOf_encRgbe atLeast below
    have near {x y : Word} {n : ℕ} (le : (san x).value ≤ M)
        (value : val y = n * 2 ^ ((byteOf c.o0 3 : ℤ) - 136))
        (level : n = min (rgbeLevel (frexp M).e (san x).value) 255) :
        0 ≤ (san x).value - val y ∧ (san x).value - val y < 2 ^ ((frexp M).e - 8) := by
      rw [value, level, byte3]
      exact rgbeByte_error notClamped (san_value_nonneg x) (le.trans_lt hi)
    exact ⟨_, lo, hi, near red val0 byte0, near green val1 byte1, near blue val2 byte2⟩

end Sys2Proof.Machine
end

section
/-! PROOFS. The host's access to the window (43_host_access.md R140 to R149): what a read answers, what a write at each
offset does, and that every event is taken and every transaction answered once. -/

namespace Sys2Proof.Machine

/-! ### Commands and reserved words at CMD (R144 to R146) -/

/-- Settles O6: a CMD write runs the command its word decodes to, on the state that holds the answer. -/
theorem stepRunsTheDecodedCommand : Obligations.StepRunsTheDecodedCommand := by
  intro s w i rest next decoded _
  rw [step_nextCommand next, writeCmd_ok decoded]
  rfl

theorem cmdErr_mask : Flag.cmdErr.mask = 0x80#32 := rfl

theorem rejectCommand_regs (s : State) :
    (rejectCommand s).regs = { s.regs with status := s.regs.status ||| 0x80#32 } := by
  rw [← cmdErr_mask]
  rfl

/-- Settles O8: a reserved word is rejected, and that raises CMD_ERR alone. -/
theorem reservedWordSetsOnlyCmdErr : Obligations.ReservedWordSetsOnlyCmdErr := by
  intro s w e rest next rejected
  refine ⟨rejectCommand (answer .written { s with pending := rest }), ?_, rejectCommand_regs _⟩
  rw [step_nextCommand next, writeCmd_error rejected]

/-- Settles O43. -/
theorem nopChangesNothing : Obligations.NopChangesNothing := ⟨rfl, exec_nop⟩

/-! ### Writes of RANGE, STATUS and the inputs (R142, R143, R147) -/

theorem rangeErr_mask : Flag.rangeErr.mask = 0x40#32 := rfl

/-- The legality test as a range of patterns, and RANGE_ERR as a bit. -/
theorem writeRange_regs (d : Word) (s : State) :
    (writeRange d s).regs = if 0x00000001 ≤ d.toNat ∧ d.toNat ≤ 0x7F7FFFFF then { s.regs with range := d }
      else { s.regs with status := s.regs.status ||| 0x40#32 } := by
  rcases writeRange_cases d s with ⟨legal, stored⟩ | ⟨illegal, rejected⟩
  · rw [stored, if_pos ((legalRange_iff d).mp legal)]
  · rw [Bool.eq_false_iff, ne_eq, legalRange_iff] at illegal
    rw [rejected, if_neg illegal, ← rangeErr_mask]
    rfl

/-- Settles O11. -/
theorem rangeWriteStoresOrSetsRangeErr : Obligations.RangeWriteStoresOrSetsRangeErr := by
  intro s d rest next
  exact ⟨writeRange d (answer .written { s with pending := rest }), step_nextWrite next rfl, writeRange_regs d _⟩

/-- Settles O12: write-1-to-clear, bit by bit. -/
theorem statusWriteClearsItsOnes : Obligations.StatusWriteClearsItsOnes := by
  intro s d rest next
  refine ⟨writeStatus d (answer .written { s with pending := rest }), step_nextWrite next rfl, rfl, fun i => ?_⟩
  rw [writeStatus_status, clearFlags_getLsbD, answer_regs]
  split
  case isTrue cleared =>
    obtain ⟨low, one⟩ := cleared
    simp [low, one]
  case isFalse kept =>
    have mask : (decide (i < 8) && d.getLsbD i) = false := by simpa using kept
    rw [mask, Bool.not_false, Bool.and_true]

/-- Settles O13: each input register is written at its own offset. -/
theorem inputWriteStoresTheWord : Obligations.InputWriteStoresTheWord := fun _ _ _ =>
  ⟨fun next => ⟨_, step_nextWrite next rfl, rfl⟩, fun next => ⟨_, step_nextWrite next rfl, rfl⟩,
    fun next => ⟨_, step_nextWrite next rfl, rfl⟩⟩

/-! ### Writes that are ignored (R54, R148) -/

/-- Every register a write affects lies strictly between ID and OUT0. -/
theorem writeReg_readOnly {off : BitVec 6} (h : off = 0x00 ∨ 0x1C ≤ off.toNat) (d : Word) (s : State) :
    writeReg off d s = .next s := by
  have effects := writeReg_cases off d s
  simp only [regAt_eq_some] at effects
  rcases effects with ⟨rfl, -⟩ | ⟨rfl, -⟩ | ⟨rfl, -⟩ | ⟨rfl, -⟩ | ⟨rfl, -⟩ | ⟨rfl, -⟩ | ignored
  case inr.inr.inr.inr.inr.inr => exact ignored
  all_goals exact absurd h (by decide)

/-- Settles O14. -/
theorem readOnlyWriteIsIgnored : Obligations.ReadOnlyWriteIsIgnored := by
  intro s off d rest next aligned readOnly
  rw [step_nextWrite next aligned, writeReg_readOnly readOnly]
  rfl

/-! ### Reads (R141) -/

theorem readStatus_eq_setWidth (st : Word) : readStatus st = (st.setWidth 8).setWidth 32 := by
  apply BitVec.eq_of_getLsbD_eq
  intro i lt
  rw [readStatus_getLsbD, BitVec.getLsbD_setWidth, BitVec.getLsbD_setWidth, decide_eq_true lt, Bool.true_and,
    Bool.and_comm]

theorem ne_offset_of_regAt_eq_none {off : BitVec 6} (h : regAt off = none) (name : RegName) : off ≠ name.offset :=
  fun eq => Option.some_ne_none name (((regAt_eq_some off name).mpr eq).symm.trans h)

/-- Settles O10: at a register's offset the two tables agree row by row, and a reserved offset is no register's. -/
theorem readAnswersTheRegister : Obligations.ReadAnswersTheRegister := by
  intro s off rest next aligned v
  have value : readReg s.regs off = v := by
    cases found : regAt off with
    | some name =>
      obtain rfl := (regAt_eq_some off name).mp found
      cases name
      case status => exact readStatus_eq_setWidth s.regs.status
      all_goals rfl
    | none =>
      have reserved : readReg s.regs off = 0 := by simp only [readReg, found]; rfl
      have other := ne_offset_of_regAt_eq_none found
      rw [reserved]
      exact ((if_neg (other .id)).trans <| (if_neg (other .range)).trans <| (if_neg (other .status)).trans <|
        (if_neg (other .in0)).trans <| (if_neg (other .in1)).trans <| (if_neg (other .in2)).trans <|
        (if_neg (other .out0)).trans <| (if_neg (other .out1)).trans <| if_neg (other .out2)).symm
  rw [step_nextTransaction next, transact_read ((admitted_read_iff off 4).mpr ⟨rfl, aligned⟩), ← value]
  rfl

/-! ### Every transaction is answered once (R47, R140) -/

/-- Whatever a transaction is, it completes with one answer, and besides that only the registers can change. -/
theorem transact_answers (off : BitVec 6) (a : Access) (s : State) :
    ∃ r regs, transact off a s = .next { s with regs := regs, replies := s.replies ++ [r] } := by
  cases adm : admitted off a with
  | false => exact ⟨.busError, s.regs, transact_busError adm s⟩
  | true =>
    cases a with
    | read n => exact ⟨.data (readReg s.regs off), s.regs, transact_read adm s⟩
    | write n d be =>
      obtain ⟨regs, -, run⟩ := writeReg_effect off d (answer .written s)
      exact ⟨.written, regs, (transact_write adm s).trans run⟩

theorem handle_transaction_answers (off : BitVec 6) (a : Access) (s : State) :
    ∃ r regs, handle (.transaction off a) s = .next { s with regs := regs, replies := s.replies ++ [r] } := by
  cases line : s.resetLine with
  | false =>
    obtain ⟨r, regs, run⟩ := transact_answers off a s
    exact ⟨r, regs, by simpa [handle, arrive, line] using run⟩
  | true => exact ⟨.unanswered, s.regs, by simp [handle, arrive, line, answer]⟩

theorem handle_atAddress_answers (addr : Nat) (a : Access) (s : State) :
    ∃ r regs, handle (.atAddress addr a) s = .next { s with regs := regs, replies := s.replies ++ [r] } := by
  cases offset : windowOffset s.window addr with
  | none => exact ⟨.unanswered, s.regs, handle_atAddress_outside offset a⟩
  | some off =>
    rw [handle_atAddress_inside offset]
    exact handle_transaction_answers off a s

/-- Settles O16: the two forms of a transaction add one answer, and a reset event only sets registers and the line. -/
theorem eachTransactionIsAnsweredOnce : Obligations.EachTransactionIsAnsweredOnce := by
  intro s e rest pending
  rw [step_cons pending]
  cases e with
  | transaction off a =>
    obtain ⟨r, regs, run⟩ := handle_transaction_answers off a { s with pending := rest }
    exact ⟨_, run, rfl, r, rfl⟩
  | atAddress addr a =>
    obtain ⟨r, regs, run⟩ := handle_atAddress_answers addr a { s with pending := rest }
    exact ⟨_, run, rfl, r, rfl⟩
  | resetInput asserted =>
    cases asserted
    · exact ⟨releaseReset { s with pending := rest }, rfl, rfl, rfl⟩
    · exact ⟨assertReset { s with pending := rest }, rfl, rfl, rfl⟩
  | powerUp => exact ⟨assertReset { s with pending := rest }, rfl, rfl, rfl⟩

/-! ### Every run completes (R47, R149) -/

theorem step_completes (s : State) : ∃ t, step s = .next t ∧ t.pending = s.pending.tail := by
  cases pending : s.pending with
  | nil => exact ⟨s, step_idle pending, pending⟩
  | cons e rest =>
    obtain ⟨t, run, taken, -⟩ := eachTransactionIsAnsweredOnce s e rest pending
    exact ⟨t, run, taken⟩

theorem run_succ_of_step {s t : State} (h : step s = .next t) (k : Nat) :
    Host.Core.run Sys2Proof.core (k + 1) s = Host.Core.run Sys2Proof.core k t := by
  have coreStep : Sys2Proof.core.step s = .next t := h
  simp only [Host.Core.run, coreStep]

/-- Settles O15, by induction on the number of steps. -/
theorem everyRunCompletes : Obligations.EveryRunCompletes := by
  intro k
  induction k with
  | zero => exact fun s => ⟨s, rfl, rfl⟩
  | succ k ih =>
    intro s
    obtain ⟨u, first, taken⟩ := step_completes s
    obtain ⟨t, run, left⟩ := ih u
    refine ⟨t, (run_succ_of_step first k).trans run, ?_⟩
    rw [left, taken, List.drop_tail]

end Sys2Proof.Machine
end

section
/-! PROOFS. The exceptional conditions of 60_exceptions.md: several flags of one command (R164), and a platform of
several blocks, each with its own window and its own state (R171). -/

namespace Sys2Proof.Machine

/-! ### Several flags of one command (R164) -/

/-- MAXF lies in the highest binade, one above the scaler's clamp (R88, R89). -/
theorem frexp_e_maxF : (frexp ((2 ^ 24 - 1) * 2 ^ 104)).e = 128 :=
  frexp_e_eq (by norm_num) (by norm_num) (by norm_num)

/-- `+Inf` gives a level of 511, which does not fit a byte (R87, R103). -/
theorem rgbeLevel_maxF : rgbeLevel 128 ((2 ^ 24 - 1) * 2 ^ 104) = 511 := by
  rw [rgbeLevel, Nat.floor_eq_iff (by positivity)]
  norm_num

theorem rgbeLevel_zero (e : ℤ) : rgbeLevel e 0 = 0 := by simp [rgbeLevel]

/-- The sanitiser makes the pixel `(MAXF, 0, 0)`. SAT is raised twice, by the scaler and by the red byte (R87, R88). -/
theorem encRgbe_inf_nan_negative :
    encRgbe 0x7F800000#32 0x7FC00000#32 0xBF800000#32 =
      encodeResult 255 0 0 255 [.inInf, .inNan, .inNeg, .sat, .sat] := by
  have nan : san 0x7FC00000#32 = { value := 0, flags := [.inNan] } := san_of_nan (by decide)
  have negative : san 0xBF800000#32 = { value := 0, flags := [.inNeg] } := san_of_negative (by decide) (by decide)
  have largest : largestChannel 0x7F800000#32 0x7FC00000#32 0xBF800000#32 = (2 ^ 24 - 1) * 2 ^ 104 := by
    rw [largestChannel, san_posInf, nan, negative]
    norm_num
  rw [encRgbe_of_ge (by rw [largest]; norm_num)]
  simp only [largest, frexp_e_maxF, san_posInf, nan, negative, rgbeLevel_maxF, rgbeLevel_zero]
  rfl

/-- Settles O32: the five flags are four STATUS bits. -/
theorem flagsOfOneCommandAreSetTogether : Obligations.FlagsOfOneCommandAreSetTogether := by
  intro s in0 in1 in2
  refine ⟨_, exec_encRgbe s, ?_, ?_⟩
  · rw [in0, in1, in2, encRgbe_inf_nan_negative, commit_status, encodeResult_flags, setFlags_eq_or]
    rfl
  · rw [in0, in1, in2, encRgbe_inf_nan_negative]
    rfl

/-! ### A step of one block (R171) -/

theorem stepInstance_of_step {k : Nat} {p : List State} {s t : State} (block : p[k]? = some s)
    (run : step s = .next t) : stepInstance k p = .next (p.set k t) := by
  simp only [stepInstance, block, run]

/-- Settles O28: every step completes, and it replaces one entry of the list. -/
theorem instancesShareNothing : Obligations.InstancesShareNothing := by
  intro p k s block
  obtain ⟨t, run, -⟩ := step_completes s
  obtain ⟨lt, -⟩ := List.getElem?_eq_some_iff.mp block
  exact ⟨t, p.set k t, run, stepInstance_of_step block run, List.length_set, List.getElem?_set_self lt,
    fun j other => List.getElem?_set_ne other.symm⟩

/-! ### The wiring of the blocks (R171) -/

/-- No step rewires its block: a transaction changes registers and the record of answers only, and reset is not wired to
the window. -/
theorem step_window {s t : State} (h : step s = .next t) : t.window = s.window := by
  cases pending : s.pending with
  | nil =>
    rw [step_idle pending] at h
    cases h
    rfl
  | cons e rest =>
    rw [step_cons pending] at h
    rcases handle_cases e { s with pending := rest } with
      ⟨off, a, -, -, taken⟩ | ⟨-, untaken⟩ | ⟨-, asserted⟩ | ⟨-, released⟩
    · obtain ⟨r, regs, run⟩ := transact_answers off a { s with pending := rest }
      rw [taken, run] at h
      cases h
      rfl
    · rw [untaken] at h
      cases h
      rfl
    · rw [asserted] at h
      cases h
      rfl
    · rw [released] at h
      cases h
      rfl

theorem platformReset_ownWindows : OwnWindows platformReset := by
  intro k s block
  rw [platformReset, List.getElem?_map, Option.map_eq_some_iff] at block
  obtain ⟨i, index, rfl⟩ := block
  obtain ⟨lt, rfl⟩ := List.getElem?_eq_some_iff.mp index
  exact List.getElem_range lt

/-- Replacing a block by one with the same wiring keeps the platform wired. -/
theorem OwnWindows.set {p : List State} (own : OwnWindows p) {k : Nat} {t : State} (wired : t.window = k) :
    OwnWindows (p.set k t) := by
  intro j u block
  by_cases same : k = j
  · subst same
    obtain ⟨lt, rfl⟩ := List.getElem?_eq_some_iff.mp block
    rw [List.getElem_set_self]
    exact wired
  · rw [List.getElem?_set_ne same] at block
    exact own j u block

theorem stepInstance_ownWindows {p q : List State} {k : Nat} (own : OwnWindows p) (h : stepInstance k p = .next q) :
    OwnWindows q := by
  rcases stepInstance_cases h with ⟨-, rfl⟩ | ⟨s, t, block, run, rfl⟩
  · exact own
  · exact own.set ((step_window run).trans (own k s block))

/-! ### An access by platform address (R40, R53, R171) -/

/-- The windows are 64 bytes long and no later one starts before an earlier one ends. -/
theorem window_unique {j k addr : Nat} {off off' : BitVec 6} (hj : windowOffset j addr = some off)
    (hk : windowOffset k addr = some off') : j = k := by
  obtain ⟨⟨startJ, endJ⟩, -⟩ := (windowOffset_eq_some j addr off).mp hj
  obtain ⟨⟨startK, endK⟩, -⟩ := (windowOffset_eq_some k addr off').mp hk
  rcases lt_trichotomy j k with before | same | after
  · have := base_add_le before
    omega
  · exact same
  · have := base_add_le after
    omega

theorem windowOffset_eq_none_of_ne {j k addr : Nat} {off : BitVec 6} (holds : windowOffset k addr = some off)
    (other : j ≠ k) : windowOffset j addr = none :=
  Option.eq_none_iff_forall_ne_some.mpr fun _ found => other (window_unique found holds)

section
variable {addr : Nat} {p : List State} {k : Nat}

/-- The block whose window holds the address gets the access, after what already waits there. -/
theorem hostAccess_inside {s : State} {off : BitVec 6} (block : p[k]? = some s)
    (inside : windowOffset s.window addr = some off) (a : Access) :
    (hostAccess addr a p)[k]? = some { s with pending := s.pending ++ [.atAddress addr a] } := by
  rw [hostAccess_getElem?, block]
  simp only [Option.map_some, inside]

/-- A block whose window does not hold the address is left alone. -/
theorem hostAccess_outside (outside : ∀ s, p[k]? = some s → windowOffset s.window addr = none) (a : Access) :
    (hostAccess addr a p)[k]? = p[k]? := by
  rw [hostAccess_getElem?]
  cases block : p[k]? with
  | none => rfl
  | some s => simp only [Option.map_some, outside s block]

end

theorem hostAccess_ownWindows {p : List State} (own : OwnWindows p) (addr : Nat) (a : Access) :
    OwnWindows (hostAccess addr a p) := by
  intro k t block
  rw [hostAccess_getElem?, Option.map_eq_some_iff] at block
  obtain ⟨s, before, rfl⟩ := block
  rw [← own k s before]
  split
  · rfl
  · rfl

/-- Settles O60: in a wired platform block `k` decodes window `k`, and an address lies in one window at most. -/
theorem instancesHaveTheirOwnWindows : Obligations.InstancesHaveTheirOwnWindows := by
  refine ⟨fun _ _ _ _ _ => window_unique, platformReset_ownWindows, fun _ _ _ => stepInstance_ownWindows,
    fun p addr a own => ⟨hostAccess_ownWindows own addr a, fun k s off block holds => ⟨?_, fun j other => ?_⟩,
      fun nowhere => List.ext_getElem? fun k => ?_⟩⟩
  · exact hostAccess_inside block ((own k s block).symm ▸ holds) a
  · exact hostAccess_outside (fun t found => own j t found ▸ windowOffset_eq_none_of_ne holds other) a
  · refine hostAccess_outside (fun t found => ?_) a
    obtain ⟨lt, -⟩ := List.getElem?_eq_some_iff.mp found
    rw [own k t found]
    exact nowhere k lt

end Sys2Proof.Machine
end

section
/-! PROOFS. The reset input and power-up (70_reset_and_hazards.md R180, 60_exceptions.md R173): what a step does where
the next event is one of them, and where a transaction arrives while reset is asserted. -/

namespace Sys2Proof.Machine

section
variable {s : State} {rest : List PortEvent}

/-- Power-up is an assertion of reset (R173). -/
theorem step_nextReset (next : NextReset s) : ∃ rest, step s = .next (assertReset { s with pending := rest }) := by
  obtain ⟨rest, asserted | powered⟩ := next
  · exact ⟨rest, step_cons asserted⟩
  · exact ⟨rest, step_cons powered⟩

theorem step_releaseReset (pending : s.pending = .resetInput false :: rest) :
    step s = .next (releaseReset { s with pending := rest }) :=
  step_cons pending

/-- The port does not look at the access before it has looked at the reset input. -/
theorem arrive_of_resetLine (line : s.resetLine = true) (off : BitVec 6) (a : Access) :
    arrive off a s = .next (answer .unanswered s) := by
  rw [arrive, if_pos line]

theorem step_transaction_of_resetLine {off : BitVec 6} {a : Access} (line : s.resetLine = true)
    (pending : s.pending = .transaction off a :: rest) :
    step s = .next (answer .unanswered { s with pending := rest }) :=
  (step_cons pending).trans (arrive_of_resetLine (s := { s with pending := rest }) line off a)

end

/-- Settles O20: assertion and power-up load the reset registers, a transaction during reset is only recorded as
unanswered, and the release changes only the line. -/
theorem resetInputRestoresEveryRegister : Obligations.ResetInputRestoresEveryRegister := by
  refine fun s => ⟨fun next => ?_, fun off a rest line pending => ?_, fun rest pending => ?_⟩
  · obtain ⟨rest, run⟩ := step_nextReset next
    exact ⟨_, run, assertReset_regs _, assertReset_resetLine _⟩
  · exact step_transaction_of_resetLine line pending
  · exact step_releaseReset pending

end Sys2Proof.Machine
end
